-- ==== Sys2Proof/Word.lean ====
section
/-! DEFINITION. The word types of the core: XLEN = 32, NREGS = 16 (00_scope.md R7, R9). -/

namespace Sys2Proof

/-- A general register, the status word, an address or an instruction: 32 bits (00_scope.md R7, R9). -/
abbrev Word := BitVec 32

/-- The unit of memory: 8 bits (10_state.md R35). -/
abbrev Byte := BitVec 8

/-- The number of a general register, 0 to 15 (10_state.md R20; 30_encoding.md R76). -/
abbrev RegNum := Fin 16

end Sys2Proof
end

