-- ==== Sys2Proof/Config.lean ====
section
/-! DEFINITION. The parameters of the core (00_scope.md R7) and its one free value, MUL_C. Their values stand in
`Sys2Proof/Machine/Parameters.lean`. -/

namespace Sys2Proof

/-- The five parameters that the source does not fix (00_scope.md R7). One core has one record of them, held in
`State` and changed by no operation, so that a claim about every state is a claim about every memory map and every
halting immediate. -/
structure Params where
  /-- TEXT_BASE, the address of the text region's first byte. -/
  textBase : Nat
  /-- TEXT_SIZE, in bytes. -/
  textSize : Nat
  /-- DATA_BASE, the address of the data region's first byte. -/
  dataBase : Nat
  /-- DATA_SIZE, in bytes. -/
  dataSize : Nat
  /-- HALT_IMM, the SWI immediate that halts. -/
  haltImm : BitVec 24
  deriving DecidableEq, Repr

/-- The constraints on the region parameters (00_scope.md R7, decision D6): sizes at least 4, bases and sizes
multiples of 4, neither interval passes 2^32, the intervals are disjoint. -/
abbrev Params.wf (p : Params) : Prop :=
  4 ≤ p.textSize ∧ 4 ≤ p.dataSize ∧
  4 ∣ p.textBase ∧ 4 ∣ p.textSize ∧ 4 ∣ p.dataBase ∧ 4 ∣ p.dataSize ∧
  p.textBase + p.textSize ≤ 2 ^ 32 ∧ p.dataBase + p.dataSize ≤ 2 ^ 32 ∧
  (p.textBase + p.textSize ≤ p.dataBase ∨ p.dataBase + p.dataSize ≤ p.textBase)

/-- PC_INDEX: register 15 is the program counter (00_scope.md R7; 10_state.md R21). -/
def Config.pcIndex : RegNum := 15

/-- LR_INDEX: register 14 is the link register (00_scope.md R7; 10_state.md R21). -/
def Config.lrIndex : RegNum := 14

/-- MUL_C, the C flag after MUL or MLA with S = 1: any value (00_scope.md R7; 44_multiply.md R147). The argument is
the number of the draw, so two draws are unrelated. No body: nothing can be proved of a value (assumption log 3). -/
opaque Config.mulC : Nat → Bool

end Sys2Proof
end

