-- ==== Sys2Proof/Syntax.lean ====
section
/-! DEFINITION. The instructions: one constructor of `Instr` for each row of `spec/opcode_table.json`, with every
field of the word, the fields the core ignores included (30_encoding.md R81), so that a word is never encoded twice. -/

namespace Sys2Proof

/-- The sixteen conditions in numeric order (40_condition.md R91). -/
inductive Cond where
  | eq | ne | cs | cc | mi | pl | vs | vc | hi | ls | ge | lt | gt | le | al
  /-- The reserved code 1111, which never passes (30_encoding.md R79). -/
  | never
  deriving DecidableEq, Repr

/-- The four shift operators in numeric order (30_encoding.md R70). -/
inductive ShiftType where
  | lsl | lsr | asr | ror
  deriving DecidableEq, Repr

/-- The shifter-operand field, bits 11:0 and bit 25 of a data-processing word (30_encoding.md R70). -/
inductive Operand2 where
  /-- An 8-bit immediate rotated right by twice `rot`. -/
  | imm (rot : BitVec 4) (imm8 : BitVec 8)
  /-- Register `rm` shifted by the amount `shamt`. -/
  | shiftImm (shamt : BitVec 5) (type : ShiftType) (rm : RegNum)
  /-- Register `rm` shifted by the low byte of register `rs`; bit 7 is ignored (R78, R81). -/
  | shiftReg (rs : RegNum) (bit7 : Bool) (type : ShiftType) (rm : RegNum)
  deriving DecidableEq, Repr

/-- The offset field, bits 11:0 and bit 25 of a load/store word (30_encoding.md R71). -/
inductive Offset where
  /-- A 12-bit unsigned immediate. -/
  | imm (offset12 : BitVec 12)
  /-- Register `rm` shifted by the amount `shamt`; bit 4 is ignored (R78, R81). -/
  | scaled (shamt : BitVec 5) (type : ShiftType) (bit4 : Bool) (rm : RegNum)
  deriving DecidableEq, Repr

/-- The fields of SWI (30_encoding.md R65). -/
structure SwiArgs where
  cond : Cond
  imm24 : BitVec 24
  deriving DecidableEq, Repr

/-- The fields of MUL and MLA (30_encoding.md R66). MUL ignores `rn`. -/
structure MulArgs where
  cond : Cond
  s : Bool
  rd : RegNum
  rn : RegNum
  rs : RegNum
  rm : RegNum
  deriving DecidableEq, Repr

/-- The fields of B and BL (30_encoding.md R67). -/
structure BranchArgs where
  cond : Cond
  imm24 : BitVec 24
  deriving DecidableEq, Repr

/-- The fields of LDR, LDRB, STR and STRB (30_encoding.md R68). -/
structure LsArgs where
  cond : Cond
  /-- P: the offset is applied before the access. -/
  p : Bool
  /-- U: the offset is added. -/
  u : Bool
  /-- W: the base is written back. -/
  w : Bool
  rn : RegNum
  rd : RegNum
  offset : Offset
  deriving DecidableEq, Repr

/-- The fields of a load/store word with P = 0 and W = 1, none of which is examined (46_load_store.md R160). -/
structure LsUnsupportedArgs where
  cond : Cond
  u : Bool
  b : Bool
  l : Bool
  rn : RegNum
  rd : RegNum
  offset : Offset
  deriving DecidableEq, Repr

/-- The fields of the sixteen data-processing instructions (30_encoding.md R69). MOV and MVN ignore `rn`; TST, TEQ,
CMP and CMN ignore `rd` and `s` (R81). -/
structure DpArgs where
  cond : Cond
  s : Bool
  rn : RegNum
  rd : RegNum
  op2 : Operand2
  deriving DecidableEq, Repr

/-- The instructions, in the order of `spec/opcode_table.json`. -/
inductive Instr where
  | swi (a : SwiArgs)
  | mul (a : MulArgs)
  | mla (a : MulArgs)
  | b (a : BranchArgs)
  | bl (a : BranchArgs)
  /-- Load/store with P = 0, W = 1: halts (46_load_store.md R160). -/
  | lsUnsupported (a : LsUnsupportedArgs)
  | ldr (a : LsArgs)
  | ldrb (a : LsArgs)
  | str (a : LsArgs)
  | strb (a : LsArgs)
  | and (a : DpArgs)
  | eor (a : DpArgs)
  | sub (a : DpArgs)
  | rsb (a : DpArgs)
  | add (a : DpArgs)
  | adc (a : DpArgs)
  | sbc (a : DpArgs)
  | rsc (a : DpArgs)
  | tst (a : DpArgs)
  | teq (a : DpArgs)
  | cmp (a : DpArgs)
  | cmn (a : DpArgs)
  | orr (a : DpArgs)
  | mov (a : DpArgs)
  | bic (a : DpArgs)
  | mvn (a : DpArgs)
  /-- A word of no class, with its bits 27:0 (30_encoding.md R77). -/
  | unrecognised (cond : Cond) (bits : BitVec 28)
  deriving DecidableEq, Repr

/-- The condition of an instruction (30_encoding.md R61). -/
def Instr.cond : Instr → Cond
  | .swi a => a.cond
  | .mul a | .mla a => a.cond
  | .b a | .bl a => a.cond
  | .lsUnsupported a => a.cond
  | .ldr a | .ldrb a | .str a | .strb a => a.cond
  | .and a | .eor a | .sub a | .rsb a | .add a | .adc a | .sbc a | .rsc a => a.cond
  | .tst a | .teq a | .cmp a | .cmn a | .orr a | .mov a | .bic a | .mvn a => a.cond
  | .unrecognised c _ => c

/-- The row of `spec/opcode_table.json` an instruction belongs to. -/
def Instr.mnemonic : Instr → String
  | .swi _ => "SWI"
  | .mul _ => "MUL"
  | .mla _ => "MLA"
  | .b _ => "B"
  | .bl _ => "BL"
  | .lsUnsupported _ => "LS_UNSUPPORTED"
  | .ldr _ => "LDR"
  | .ldrb _ => "LDRB"
  | .str _ => "STR"
  | .strb _ => "STRB"
  | .and _ => "AND"
  | .eor _ => "EOR"
  | .sub _ => "SUB"
  | .rsb _ => "RSB"
  | .add _ => "ADD"
  | .adc _ => "ADC"
  | .sbc _ => "SBC"
  | .rsc _ => "RSC"
  | .tst _ => "TST"
  | .teq _ => "TEQ"
  | .cmp _ => "CMP"
  | .cmn _ => "CMN"
  | .orr _ => "ORR"
  | .mov _ => "MOV"
  | .bic _ => "BIC"
  | .mvn _ => "MVN"
  | .unrecognised _ _ => "UNRECOGNISED"

end Sys2Proof
end

