-- ==== Sys2Proof/WellFormed.lean ====
section
/-! DEFINITION. Which terms of `Instr` are instructions of the core: those whose fields put the encoded word in the
instruction's own class (30_encoding.md R63, R73). -/

namespace Sys2Proof

/-- Operand 2 has the bits `1001` in 7:4, the multiply pattern's lower part (30_encoding.md R63, R66). -/
def Operand2.looksLikeMultiply : Operand2 → Bool
  | .shiftReg _ true .lsl _ => true
  | _ => false

/-- Not the P = 0, W = 1 form, which is LS_UNSUPPORTED (46_load_store.md R160). -/
def LsArgs.supported (a : LsArgs) : Bool := a.p || !a.w

/-- Bits 27:0 match no class: bits 27:25 are 100 or 110, or bits 27:24 are 1110 (30_encoding.md R64, R77). -/
def outsideEveryClass (bits : BitVec 28) : Bool :=
  bits.extractLsb' 25 3 == 0b100#3 || bits.extractLsb' 25 3 == 0b110#3 || bits.extractLsb' 24 4 == 0b1110#4

/-- An instruction of the core. AND and EOR words with `1001` in bits 7:4 are multiplies (30_encoding.md R63: "every
multiply word also matches the data-processing pattern"); the other opcodes have a bit set in 27:22. -/
def Instr.wf : Instr → Bool
  | .ldr a | .ldrb a | .str a | .strb a => a.supported
  | .and a | .eor a => !a.op2.looksLikeMultiply
  | .unrecognised _ bits => outsideEveryClass bits
  | .swi _ | .mul _ | .mla _ | .b _ | .bl _ | .lsUnsupported _ => true
  | .sub _ | .rsb _ | .add _ | .adc _ | .sbc _ | .rsc _ => true
  | .tst _ | .teq _ | .cmp _ | .cmn _ | .orr _ | .mov _ | .bic _ | .mvn _ => true

end Sys2Proof
end

