-- ==== Sys2Proof/Decode.lean ====
section
/-! DEFINITION. The decoder, total on 32-bit words (30_encoding.md R63, R64), the encoder, and the byte order of an
instruction in memory (20_memory.md R45, R46, R49). -/

namespace Sys2Proof

/-! ### Byte order -/

/-- Four bytes, the one at the lowest address first and most significant (20_memory.md R45). -/
def wordOfBytes (b0 b1 b2 b3 : Byte) : Word := b0 ++ b1 ++ b2 ++ b3

/-- Byte `k` of a word in memory: bits 31-8k to 24-8k (20_memory.md R46, R49). -/
def byteOfWord (w : Word) (k : Nat) : Byte := w.extractLsb' (24 - 8 * k) 8

/-! ### The codes of conditions, shift operators and register numbers -/

/-- The 4-bit code of a condition (40_condition.md R91). -/
def Cond.code : Cond → BitVec 4
  | .eq => 0b0000#4 | .ne => 0b0001#4 | .cs => 0b0010#4 | .cc => 0b0011#4
  | .mi => 0b0100#4 | .pl => 0b0101#4 | .vs => 0b0110#4 | .vc => 0b0111#4
  | .hi => 0b1000#4 | .ls => 0b1001#4 | .ge => 0b1010#4 | .lt => 0b1011#4
  | .gt => 0b1100#4 | .le => 0b1101#4 | .al => 0b1110#4 | .never => 0b1111#4

/-- The condition of a 4-bit code (40_condition.md R91). -/
def Cond.ofCode (c : BitVec 4) : Cond :=
  match c.toNat with
  | 0 => .eq | 1 => .ne | 2 => .cs | 3 => .cc | 4 => .mi | 5 => .pl | 6 => .vs | 7 => .vc
  | 8 => .hi | 9 => .ls | 10 => .ge | 11 => .lt | 12 => .gt | 13 => .le | 14 => .al | _ => .never

/-- The 2-bit code of a shift operator (30_encoding.md R70). -/
def ShiftType.code : ShiftType → BitVec 2
  | .lsl => 0b00#2 | .lsr => 0b01#2 | .asr => 0b10#2 | .ror => 0b11#2

/-- The shift operator of a 2-bit code (30_encoding.md R70). -/
def ShiftType.ofCode (c : BitVec 2) : ShiftType :=
  match c.toNat with
  | 0 => .lsl | 1 => .lsr | 2 => .asr | _ => .ror

/-- The 4-bit field that names a register (30_encoding.md R76). -/
def regCode (r : RegNum) : BitVec 4 := BitVec.ofNat 4 r.val

/-- The register a 4-bit field names (30_encoding.md R76). -/
def regOfCode (c : BitVec 4) : RegNum := ⟨c.toNat, c.isLt⟩

/-! ### Decoding -/

/-- The condition field, bits 31:28 (30_encoding.md R61). -/
def condOf (w : Word) : Cond := Cond.ofCode (w.extractLsb' 28 4)

/-- The register in the four bits from bit `lo` up. -/
def regAt (w : Word) (lo : Nat) : RegNum := regOfCode (w.extractLsb' lo 4)

/-- The shift operator in bits 6:5 (30_encoding.md R70, R71). -/
def shiftTypeOf (w : Word) : ShiftType := ShiftType.ofCode (w.extractLsb' 5 2)

/-- SWI fields (30_encoding.md R65). -/
def decodeSwiArgs (w : Word) : SwiArgs := ⟨condOf w, w.extractLsb' 0 24⟩

/-- MUL and MLA fields (30_encoding.md R66). -/
def decodeMulArgs (w : Word) : MulArgs :=
  ⟨condOf w, w.getLsbD 20, regAt w 16, regAt w 12, regAt w 8, regAt w 0⟩

/-- B and BL fields (30_encoding.md R67). -/
def decodeBranchArgs (w : Word) : BranchArgs := ⟨condOf w, w.extractLsb' 0 24⟩

/-- The offset field of a load/store word: bit 25 set means a scaled register (30_encoding.md R68, R71). -/
def decodeOffset (w : Word) : Offset :=
  if w.getLsbD 25 then .scaled (w.extractLsb' 7 5) (shiftTypeOf w) (w.getLsbD 4) (regAt w 0)
  else .imm (w.extractLsb' 0 12)

/-- LDR, LDRB, STR, STRB fields (30_encoding.md R68). -/
def decodeLsArgs (w : Word) : LsArgs :=
  ⟨condOf w, w.getLsbD 24, w.getLsbD 23, w.getLsbD 21, regAt w 16, regAt w 12, decodeOffset w⟩

/-- The fields of the unsupported form (46_load_store.md R160). -/
def decodeLsUnsupportedArgs (w : Word) : LsUnsupportedArgs :=
  ⟨condOf w, w.getLsbD 23, w.getLsbD 22, w.getLsbD 20, regAt w 16, regAt w 12, decodeOffset w⟩

/-- Operand 2: bit 25 set means an immediate, else bit 4 set means a shift by register (30_encoding.md R69, R70). -/
def decodeOperand2 (w : Word) : Operand2 :=
  if w.getLsbD 25 then .imm (w.extractLsb' 8 4) (w.extractLsb' 0 8)
  else if w.getLsbD 4 then .shiftReg (regAt w 8) (w.getLsbD 7) (shiftTypeOf w) (regAt w 0)
  else .shiftImm (w.extractLsb' 7 5) (shiftTypeOf w) (regAt w 0)

/-- Data-processing fields (30_encoding.md R69). -/
def decodeDpArgs (w : Word) : DpArgs :=
  ⟨condOf w, w.getLsbD 20, regAt w 16, regAt w 12, decodeOperand2 w⟩

/-- A word of the load/store class: the unsupported form first, then by L and B (30_encoding.md R73). -/
def decodeLoadStore (w : Word) : Instr :=
  if !w.getLsbD 24 && w.getLsbD 21 then .lsUnsupported (decodeLsUnsupportedArgs w)
  else
    match w.getLsbD 20, w.getLsbD 22 with
    | true, false => .ldr (decodeLsArgs w)
    | true, true => .ldrb (decodeLsArgs w)
    | false, false => .str (decodeLsArgs w)
    | false, true => .strb (decodeLsArgs w)

/-- The data-processing instruction that the opcode in bits 24:21 selects (30_encoding.md R72). -/
def dpInstr (opcode : BitVec 4) (a : DpArgs) : Instr :=
  match opcode.toNat with
  | 0 => .and a | 1 => .eor a | 2 => .sub a | 3 => .rsb a | 4 => .add a | 5 => .adc a | 6 => .sbc a | 7 => .rsc a
  | 8 => .tst a | 9 => .teq a | 10 => .cmp a | 11 => .cmn a | 12 => .orr a | 13 => .mov a | 14 => .bic a
  | _ => .mvn a

/-- The instruction of a word: the class patterns of 30_encoding.md R63 in their order. -/
def decodeWord (w : Word) : Instr :=
  if w.extractLsb' 24 4 = 0b1111#4 then .swi (decodeSwiArgs w)
  else if w.extractLsb' 22 6 = 0b000000#6 ∧ w.extractLsb' 4 4 = 0b1001#4 then
    if w.getLsbD 21 then .mla (decodeMulArgs w) else .mul (decodeMulArgs w)
  else if w.extractLsb' 25 3 = 0b101#3 then
    if w.getLsbD 24 then .bl (decodeBranchArgs w) else .b (decodeBranchArgs w)
  else if w.extractLsb' 26 2 = 0b01#2 then decodeLoadStore w
  else if w.extractLsb' 26 2 = 0b00#2 then dpInstr (w.extractLsb' 21 4) (decodeDpArgs w)
  else .unrecognised (condOf w) (w.extractLsb' 0 28)

/-- Why a list of bytes is no instruction. -/
inductive DecodeError where
  /-- Fewer than the four bytes of an instruction (30_encoding.md R60). -/
  | truncated
  deriving DecidableEq, Repr

/-- The instruction at the head of a list of bytes, with the bytes that follow it. -/
def decodeBytes : List Byte → Except DecodeError (Instr × List Byte)
  | b0 :: b1 :: b2 :: b3 :: rest => .ok (decodeWord (wordOfBytes b0 b1 b2 b3), rest)
  | _ => .error .truncated

/-! ### Encoding -/

/-- A one-bit field. -/
def bit (b : Bool) : BitVec 1 := BitVec.ofBool b

/-- Bits 11:0 of a data-processing word (30_encoding.md R70). -/
def Operand2.bits : Operand2 → BitVec 12
  | .imm rot imm8 => rot ++ imm8
  | .shiftImm shamt type rm => shamt ++ type.code ++ 0b0#1 ++ regCode rm
  | .shiftReg rs bit7 type rm => regCode rs ++ bit bit7 ++ type.code ++ 0b1#1 ++ regCode rm

/-- Bit 25 of a data-processing word: 1 for the immediate layout (30_encoding.md R69). -/
def Operand2.iBit : Operand2 → Bool
  | .imm _ _ => true
  | .shiftImm _ _ _ | .shiftReg _ _ _ _ => false

/-- Bits 11:0 of a load/store word (30_encoding.md R71). -/
def Offset.bits : Offset → BitVec 12
  | .imm offset12 => offset12
  | .scaled shamt type bit4 rm => shamt ++ type.code ++ bit bit4 ++ regCode rm

/-- Bit 25 of a load/store word: 1 for the scaled-register layout (30_encoding.md R68). -/
def Offset.iBit : Offset → Bool
  | .imm _ => false
  | .scaled _ _ _ _ => true

/-- The multiply format, `a` being bit 21 (30_encoding.md R66). -/
def encodeMul (accumulate : Bool) (a : MulArgs) : Word :=
  a.cond.code ++ 0b000000#6 ++ bit accumulate ++ bit a.s ++ regCode a.rd ++ regCode a.rn ++ regCode a.rs
    ++ 0b1001#4 ++ regCode a.rm

/-- The branch format, `link` being bit 24 (30_encoding.md R67). -/
def encodeBranch (link : Bool) (a : BranchArgs) : Word :=
  a.cond.code ++ 0b101#3 ++ bit link ++ a.imm24

/-- The load/store format (30_encoding.md R68). -/
def encodeLoadStore (cond : Cond) (p u b w l : Bool) (rn rd : RegNum) (offset : Offset) : Word :=
  cond.code ++ 0b01#2 ++ bit offset.iBit ++ bit p ++ bit u ++ bit b ++ bit w ++ bit l ++ regCode rn ++ regCode rd
    ++ offset.bits

/-- The data-processing format (30_encoding.md R69). -/
def encodeDp (opcode : BitVec 4) (a : DpArgs) : Word :=
  a.cond.code ++ 0b00#2 ++ bit a.op2.iBit ++ opcode ++ bit a.s ++ regCode a.rn ++ regCode a.rd ++ a.op2.bits

/-- The word of an instruction (30_encoding.md R65 to R73). -/
def encode : Instr → Word
  | .swi a => a.cond.code ++ 0b1111#4 ++ a.imm24
  | .mul a => encodeMul false a
  | .mla a => encodeMul true a
  | .b a => encodeBranch false a
  | .bl a => encodeBranch true a
  | .lsUnsupported a => encodeLoadStore a.cond false a.u a.b true a.l a.rn a.rd a.offset
  | .ldr a => encodeLoadStore a.cond a.p a.u false a.w true a.rn a.rd a.offset
  | .ldrb a => encodeLoadStore a.cond a.p a.u true a.w true a.rn a.rd a.offset
  | .str a => encodeLoadStore a.cond a.p a.u false a.w false a.rn a.rd a.offset
  | .strb a => encodeLoadStore a.cond a.p a.u true a.w false a.rn a.rd a.offset
  | .and a => encodeDp 0b0000#4 a
  | .eor a => encodeDp 0b0001#4 a
  | .sub a => encodeDp 0b0010#4 a
  | .rsb a => encodeDp 0b0011#4 a
  | .add a => encodeDp 0b0100#4 a
  | .adc a => encodeDp 0b0101#4 a
  | .sbc a => encodeDp 0b0110#4 a
  | .rsc a => encodeDp 0b0111#4 a
  | .tst a => encodeDp 0b1000#4 a
  | .teq a => encodeDp 0b1001#4 a
  | .cmp a => encodeDp 0b1010#4 a
  | .cmn a => encodeDp 0b1011#4 a
  | .orr a => encodeDp 0b1100#4 a
  | .mov a => encodeDp 0b1101#4 a
  | .bic a => encodeDp 0b1110#4 a
  | .mvn a => encodeDp 0b1111#4 a
  | .unrecognised cond bits => cond.code ++ bits

/-- The four bytes of an instruction, the most significant first, at the lowest address (20_memory.md R49). -/
def encodeBytes (i : Instr) : List Byte :=
  [byteOfWord (encode i) 0, byteOfWord (encode i) 1, byteOfWord (encode i) 2, byteOfWord (encode i) 3]

/-- What the decoder reads from an instruction whose `nbits` lowest bits are `w` and whose other bits are 0, laid out
as the core stores it; `none` where there are more bits than an instruction has (30_encoding.md R60). -/
def decodeTableWord (nbits w : Nat) : Option Instr :=
  if nbits ≤ 32 then
    let word : Word := BitVec.ofNat 32 (w % 2 ^ nbits)
    match decodeBytes [byteOfWord word 0, byteOfWord word 1, byteOfWord word 2, byteOfWord word 3] with
    | .ok (i, _) => some i
    | .error _ => none
  else none

end Sys2Proof
end

