-- ==== Sys2Proof/Machine/Parameters.lean ====
section
/-! DEFINITION. The values of the parameters and constants that a check against the original program could correct
(00_scope.md R7). -/

namespace Sys2Proof

/-- The reference values of 00_scope.md R7 (decisions D1 to D5), which the spec's test vectors use. -/
def Params.reference : Params where
  textBase := 0x00000000
  textSize := 0x00100000
  dataBase := 0x20000000
  dataSize := 0x00100000
  haltImm := 0x00000A#24

namespace Machine

/-- INSTR_BYTES: the bytes of an instruction, and the advance of the program counter (00_scope.md R7). -/
def instrBytes : Word := 4#32

/-- BRANCH_BIAS, decided as 8 (00_scope.md R7, decision D7; assumption log 2). -/
def branchBias : Word := 8#32

end Machine

end Sys2Proof
end

