-- ==== Sys2Proof/Machine/State.lean ====
section
/-! DEFINITION. The state of the core (10_state.md R20 to R37), its reset value, and the reasons a step can stop. -/

namespace Sys2Proof.Machine

/-- The bytes of both regions: the listed addresses hold the listed bytes, every other address of a region holds
`Memory.background`. -/
abbrev Memory := List Host.Cell

/-- What an unlisted address of a region holds: regions are "zero-initialized" (10_state.md R35, R37). -/
def Memory.background : Byte := 0x00#8

/-- The canonical form: addresses strictly rising, no entry equal to the background. -/
abbrev Memory.wf (m : Memory) : Prop :=
  m.Pairwise (fun c d => c.1 < d.1) ∧ ∀ c ∈ m, c.2 ≠ Memory.background

/-- The state of the core between two cycles. -/
structure State where
  /-- The general registers `x[0]` to `x[15]`; 15 is the program counter, 14 the link register (R20, R21, R24). -/
  regs : Vector Word 16
  /-- The status word: N, Z, C, V at bits 31 to 28, bits 27 to 0 unused and preserved (R29, R30). -/
  cpsr : Word
  /-- The halted flag (R32). -/
  halted : Bool
  /-- The bytes of the two regions (R35). -/
  mem : Memory
  /-- The fixed bases and sizes of the regions and the halting immediate (00_scope.md R7; 10_state.md R35). -/
  params : Params
  /-- The model's own field: how many values of MUL_C have been drawn (assumption log 3). -/
  mulDraws : Nat
  deriving DecidableEq, Repr

/-- Who made an access: the fetch, a load, a store (20_memory.md R42, R50). -/
inductive Access where
  | fetch
  | load
  | store
  deriving DecidableEq, Repr

/-- Why a step stops. -/
inductive Fault where
  /-- The fatal memory error `Fatal(addr)`: an access to `addr` that is unmapped or runs past its region's end
  (20_memory.md R42, R47; 60_exceptions.md R233). Raised by the fetch of any cycle and by LDR, LDRB, STR and STRB.
  Safe: the spec stops the core there too, with nothing committed. -/
  | fatal (access : Access) (addr : Word)
  deriving DecidableEq, Repr

/-- Why an instruction has no meaning. -/
inductive Refusal where
  /-- An instruction that is not modelled yet, by its mnemonic. Raised by no arm of `exec`: every instruction has its
  meaning. Safe. -/
  | notModelled (mnemonic : String)
  deriving DecidableEq, Repr

/-- What the execution of an instruction, or a step, ends in. -/
abbrev Outcome := Host.Outcome State Fault Refusal

/-- The state after `initialize` on a core with the parameters `p`: registers, flags and memory zero, the program
counter at TEXT_BASE, Running (10_state.md R37; 70_reset_and_hazards.md R251). -/
def State.initial (p : Params) : State where
  regs := (Vector.replicate 16 0#32).set 15 (BitVec.ofNat 32 p.textBase)
  cpsr := 0#32
  halted := false
  mem := []
  params := p
  mulDraws := 0

/-- The machine right after reset, with the reference parameters (00_scope.md R7; assumption log 1). -/
def State.reset : State := State.initial Params.reference

end Sys2Proof.Machine
end

