-- ==== Sys2Proof/Machine/Ops.lean ====
section
/-! DEFINITION. The named operations over registers, memory and the halted flag (10_state.md, 20_memory.md,
60_exceptions.md R231). An operation reads the state it is given and returns the next one (48_cycle_engine.md R204). -/

namespace Sys2Proof.Machine

/-! ### Registers -/

/-- `x[r]` of the current state (00_scope.md R10). No register is hardwired (10_state.md R20). -/
def State.reg (s : State) (r : RegNum) : Word := s.regs[r]

/-- `x[r] <- v` (00_scope.md R10). -/
def State.setReg (s : State) (r : RegNum) (v : Word) : State := { s with regs := s.regs.set r.val v r.isLt }

/-- `pc`: the address of the instruction being executed (10_state.md R24). -/
def State.pc (s : State) : Word := s.reg Config.pcIndex

/-! ### Regions -/

/-- The two memory regions (10_state.md R35). -/
inductive Region where
  | text
  | data
  deriving DecidableEq, Repr

/-- The address of a region's first byte. -/
def regionBase (p : Params) : Region → Nat
  | .text => p.textBase
  | .data => p.dataBase

/-- The address after a region's last byte. -/
def regionEnd (p : Params) : Region → Nat
  | .text => p.textBase + p.textSize
  | .data => p.dataBase + p.dataSize

/-- The region whose interval contains the address, computed without wrap (20_memory.md R40); `none` is unmapped
(R41). -/
def regionOf (p : Params) (a : Nat) : Option Region :=
  if regionBase p .text ≤ a ∧ a < regionEnd p .text then some .text
  else if regionBase p .data ≤ a ∧ a < regionEnd p .data then some .data
  else none

/-- The `n` bytes from `a` on all lie in the region of the first (20_memory.md R42, R47). -/
def accessible (p : Params) (a n : Nat) : Bool :=
  match regionOf p a with
  | some r => a + n ≤ regionEnd p r
  | none => false

/-! ### Memory as data -/

/-- The byte at an address of a region. -/
def Memory.read : Memory → Nat → Byte
  | [], _ => Memory.background
  | (k, b) :: m, a => if k = a then b else Memory.read m a

/-- The memory in which the byte at `a` is `v`, in canonical form again. -/
def Memory.write : Memory → Nat → Byte → Memory
  | [], a, v => if v = Memory.background then [] else [(a, v)]
  | (k, b) :: m, a, v =>
    if a < k then (if v = Memory.background then (k, b) :: m else (a, v) :: (k, b) :: m)
    else if a = k then (if v = Memory.background then m else (a, v) :: m)
    else (k, b) :: Memory.write m a v

/-- The big-endian word at `a` (20_memory.md R45). -/
def Memory.readWord (m : Memory) (a : Nat) : Word :=
  wordOfBytes (Memory.read m a) (Memory.read m (a + 1)) (Memory.read m (a + 2)) (Memory.read m (a + 3))

/-- The memory in which the four bytes from `a` on are the word `v`, most significant first (20_memory.md R46). -/
def Memory.writeWord (m : Memory) (a : Nat) (v : Word) : Memory :=
  Memory.write (Memory.write (Memory.write (Memory.write m a (byteOfWord v 0)) (a + 1) (byteOfWord v 1))
    (a + 2) (byteOfWord v 2)) (a + 3) (byteOfWord v 3)

/-! ### The access primitives; `none` is `Fatal` -/

/-- The memory replaced. -/
def State.setMem (s : State) (m : Memory) : State := { s with mem := m }

/-- `MemRead(a, 1)` (20_memory.md R44). -/
def State.memRead8 (s : State) (a : Word) : Option Byte :=
  if accessible s.params a.toNat 1 then some (Memory.read s.mem a.toNat) else none

/-- `MemRead(a, 4)`, at any alignment (20_memory.md R45, R47, R48). -/
def State.memRead32 (s : State) (a : Word) : Option Word :=
  if accessible s.params a.toNat 4 then some (Memory.readWord s.mem a.toNat) else none

/-- `MemWrite(a, 1, v)` (20_memory.md R46). -/
def State.memWrite8 (s : State) (a : Word) (v : Byte) : Option State :=
  if accessible s.params a.toNat 1 then some (s.setMem (Memory.write s.mem a.toNat v)) else none

/-- `MemWrite(a, 4, v)`, at any alignment, all four bytes or none (20_memory.md R46, R47, R48). -/
def State.memWrite32 (s : State) (a : Word) (v : Word) : Option State :=
  if accessible s.params a.toNat 4 then some (s.setMem (Memory.writeWord s.mem a.toNat v)) else none

/-! ### The core's one exception: halt -/

/-- `raise Halt` (00_scope.md R10; 60_exceptions.md R231): the halted flag, and nothing else. There is no vector, no
saved register and no mode (R236), and no return: only a reset leaves the halt (R232). -/
def State.raiseHalt (s : State) : State := { s with halted := true }

/-! ### The program counter -/

/-- The advance of the next state's program counter, unless it is halted (48_cycle_engine.md R206). -/
def State.advancePc (s : State) : State :=
  if s.halted then s else s.setReg Config.pcIndex (s.pc + instrBytes)

end Sys2Proof.Machine
end

