-- ==== Sys2Proof/Machine/Flags.lean ====
section
/-! DEFINITION. The flags of the status word, the condition evaluator (40_condition.md), the adder and the flag
updates (44_multiply.md R147; 47_data_processing.md R166, R167, R169). -/

namespace Sys2Proof.Machine

/-- The four flags (10_state.md R29). -/
inductive Flag where
  | n | z | c | v
  deriving DecidableEq, Repr

/-- N_BIT, Z_BIT, C_BIT, V_BIT (00_scope.md R7; 10_state.md R29). -/
def flagBit : Flag → Nat
  | .n => 31 | .z => 30 | .c => 29 | .v => 28

/-- The value of a flag in the current state (00_scope.md R10). -/
def State.flag (s : State) (f : Flag) : Bool := s.cpsr.getLsbD (flagBit f)

/-- A word with bit `i` replaced by `b`. -/
def withBit (w : Word) (i : Nat) (b : Bool) : Word :=
  (w &&& ~~~(1#32 <<< i)) ||| (bif b then 1#32 <<< i else 0#32)

/-- The write of one flag bit; no other bit of the status word changes (00_scope.md R10; 10_state.md R30). -/
def State.setFlag (s : State) (f : Flag) (b : Bool) : State := { s with cpsr := withBit s.cpsr (flagBit f) b }

/-! ### The condition evaluator -/

/-- `ConditionPassed(cond)`, on the flags of the current state (40_condition.md R90, R91). -/
def conditionPassed (cond : Cond) (s : State) : Bool :=
  match cond with
  | .eq => s.flag .z
  | .ne => !s.flag .z
  | .cs => s.flag .c
  | .cc => !s.flag .c
  | .mi => s.flag .n
  | .pl => !s.flag .n
  | .vs => s.flag .v
  | .vc => !s.flag .v
  | .hi => s.flag .c && !s.flag .z
  | .ls => !s.flag .c || s.flag .z
  | .ge => s.flag .n == s.flag .v
  | .lt => s.flag .n != s.flag .v
  | .gt => !s.flag .z && (s.flag .n == s.flag .v)
  | .le => s.flag .z || (s.flag .n != s.flag .v)
  | .al => true
  | .never => false

/-! ### The adder -/

/-- What the adder returns (47_data_processing.md R166). -/
structure Sum where
  result : Word
  carry : Bool
  overflow : Bool
  deriving DecidableEq, Repr

/-- `AddWithCarry(a, b, c)`: the sums in the unbounded integers, narrowed at the end (47_data_processing.md R166). -/
def addWithCarry (a b : Word) (c : Bool) : Sum :=
  let usum : Nat := a.toNat + b.toNat + c.toNat
  let ssum : Int := a.toInt + b.toInt + (c.toNat : Int)
  let result : Word := BitVec.ofNat 32 usum
  { result, carry := decide (2 ^ 32 ≤ usum), overflow := decide (ssum ≠ result.toInt) }

/-! ### Flag updates -/

/-- N and Z from a result (47_data_processing.md R167, R169; 44_multiply.md R147). -/
def State.setNZ (s : State) (result : Word) : State :=
  (s.setFlag .n (result.getLsbD 31)).setFlag .z (result == 0#32)

/-- `SetArithFlags` (47_data_processing.md R167). -/
def State.setArithFlags (s : State) (sum : Sum) : State :=
  ((s.setNZ sum.result).setFlag .c sum.carry).setFlag .v sum.overflow

/-- `SetLogicFlags`: V is unchanged (47_data_processing.md R169). -/
def State.setLogicFlags (s : State) (result : Word) (shifterCarry : Bool) : State :=
  (s.setNZ result).setFlag .c shifterCarry

/-- `SetMulFlags`: C is a free value, drawn afresh, and V is unchanged (44_multiply.md R147; assumption log 3). -/
def State.setMulFlags (s : State) (result : Word) : State :=
  { (s.setNZ result).setFlag .c (Config.mulC s.mulDraws) with mulDraws := s.mulDraws + 1 }

end Sys2Proof.Machine
end

