-- ==== Sys2Proof/Machine/Operands.lean ====
section
/-! DEFINITION. The operand forms: the shifter-operand resolver (41_shifter_operand.md) and the load/store address
resolver (42_address_resolver.md). -/

namespace Sys2Proof.Machine

/-! ### The shifter operand -/

/-- The (value, carry-out) pair of the resolver (41_shifter_operand.md R100). -/
structure Shifted where
  value : Word
  carry : Bool
  deriving DecidableEq, Repr

/-- Every bit a copy of bit 31: the value of an arithmetic shift by 32 or more (41_shifter_operand.md R105, R111). -/
def signFill (rm : Word) : Word := if rm.getLsbD 31 then 0xFFFFFFFF#32 else 0x00000000#32

/-- `ImmediateOperand`: `imm8` rotated right by twice `rot` (41_shifter_operand.md R102). -/
def immediateOperand (rot : BitVec 4) (imm8 : BitVec 8) (c : Bool) : Shifted :=
  let r := 2 * rot.toNat
  let value := (imm8.zeroExtend 32).rotateRight r
  { value, carry := if r = 0 then c else value.getLsbD 31 }

/-- `RRX`: right by one with the carry flag entering at bit 31 (41_shifter_operand.md R107). -/
def rrx (rm : Word) (c : Bool) : Shifted :=
  { value := BitVec.ofBool c ++ rm.extractLsb' 1 31, carry := rm.getLsbD 0 }

/-- A register shifted by an immediate amount 0 to 31; the amount 0 means 32 for LSR and ASR, and RRX for ROR
(41_shifter_operand.md R103 to R107). -/
def shiftByImm (type : ShiftType) (rm : Word) (n : Nat) (c : Bool) : Shifted :=
  match type with
  | .lsl => if n = 0 then ⟨rm, c⟩ else ⟨rm <<< n, rm.getLsbD (32 - n)⟩
  | .lsr => if n = 0 then ⟨0#32, rm.getLsbD 31⟩ else ⟨rm >>> n, rm.getLsbD (n - 1)⟩
  | .asr => if n = 0 then ⟨signFill rm, rm.getLsbD 31⟩ else ⟨rm.sshiftRight n, rm.getLsbD (n - 1)⟩
  | .ror => if n = 0 then rrx rm c else ⟨rm.rotateRight n, rm.getLsbD (n - 1)⟩

/-- A register shifted by a register amount 0 to 255; the amount 0 keeps the carry for every operator
(41_shifter_operand.md R108 to R112). -/
def shiftByReg (type : ShiftType) (rm : Word) (n : Nat) (c : Bool) : Shifted :=
  if n = 0 then ⟨rm, c⟩
  else
    match type with
    | .lsl => if n < 32 then ⟨rm <<< n, rm.getLsbD (32 - n)⟩ else ⟨0#32, false⟩
    | .lsr => if n < 32 then ⟨rm >>> n, rm.getLsbD (n - 1)⟩ else ⟨0#32, false⟩
    | .asr => if n < 32 then ⟨rm.sshiftRight n, rm.getLsbD (n - 1)⟩ else ⟨signFill rm, rm.getLsbD 31⟩
    | .ror => if n % 32 = 0 then ⟨rm, rm.getLsbD 31⟩ else ⟨rm.rotateRight (n % 32), rm.getLsbD (n % 32 - 1)⟩

/-- `ShifterOperand(instr)` (41_shifter_operand.md R100). The amount of a shift by register is the low byte of `rs`;
register 15 reads as the address of the instruction (R114). -/
def shifterOperand (op2 : Operand2) (s : State) : Shifted :=
  match op2 with
  | .imm rot imm8 => immediateOperand rot imm8 (s.flag .c)
  | .shiftImm shamt type rm => shiftByImm type (s.reg rm) shamt.toNat (s.flag .c)
  | .shiftReg rs _ type rm => shiftByReg type (s.reg rm) ((s.reg rs).extractLsb' 0 8).toNat (s.flag .c)

/-! ### The load/store address -/

/-- The offset: a zero-extended immediate, or a register shifted by an immediate amount, the carry-out discarded
(42_address_resolver.md R122, R123, R124). -/
def addressOffset (offset : Offset) (s : State) : Word :=
  match offset with
  | .imm offset12 => offset12.zeroExtend 32
  | .scaled shamt type _ rm => (shiftByImm type (s.reg rm) shamt.toNat (s.flag .c)).value

/-- `moved`: the base plus or minus the offset, modulo 2^32 (42_address_resolver.md R125). -/
def movedBase (a : LsArgs) (s : State) : Word :=
  if a.u then s.reg a.rn + addressOffset a.offset s else s.reg a.rn - addressOffset a.offset s

/-- What the address resolver answers. -/
inductive Resolved where
  /-- P = 0, W = 1 (42_address_resolver.md R130). -/
  | unsupported
  /-- The address of the access, and the next state with the base written back where the mode asks for it. -/
  | access (addr : Word) (next : State)
  deriving DecidableEq, Repr

/-- `ResolveAddress(instr)` (42_address_resolver.md R121, R126 to R130). -/
def resolveAddress (a : LsArgs) (s : State) : Resolved :=
  match a.p, a.w with
  | false, true => .unsupported
  | true, false => .access (movedBase a s) s
  | true, true => .access (movedBase a s) (s.setReg a.rn (movedBase a s))
  | false, false => .access (s.reg a.rn) (s.setReg a.rn (movedBase a s))

/-! ### The branch offset -/

/-- The 24-bit immediate times 4, sign-extended from 26 bits (30_encoding.md R75). -/
def branchOffset (imm24 : BitVec 24) : Word := (imm24 ++ 0b00#2 : BitVec 26).signExtend 32

end Sys2Proof.Machine
end

