-- ==== Sys2Proof/Machine/Control.lean ====
section
/-! DEFINITION. Control flow: B and BL (45_branch.md R150 to R152), SWI (43_swi.md R140, R141) and the unrecognised
words (30_encoding.md R77). -/

namespace Sys2Proof.Machine

/-- What a branch writes to `x[15]`: the cycle engine adds the last 4 of the target (45_branch.md R150). -/
def branchWrite (imm24 : BitVec 24) (s : State) : Word := s.pc + branchOffset imm24 + (branchBias - instrBytes)

/-- B (R150). -/
def execB (a : BranchArgs) (s : State) : Outcome := .next (s.setReg Config.pcIndex (branchWrite a.imm24 s))

/-- BL: the link register takes the address after the branch (R151). -/
def execBl (a : BranchArgs) (s : State) : Outcome :=
  .next ((s.setReg Config.lrIndex (s.pc + instrBytes)).setReg Config.pcIndex (branchWrite a.imm24 s))

/-- SWI: HALT_IMM halts, every other immediate is a silent no-operation (43_swi.md R140, R141). -/
def execSwi (a : SwiArgs) (s : State) : Outcome := if a.imm24 = s.params.haltImm then .next s.raiseHalt else .next s

/-- A word of no class: no effect (30_encoding.md R77). -/
def execUnrecognised (_ : Cond) (_ : BitVec 28) (s : State) : Outcome := .next s

end Sys2Proof.Machine
end

