-- ==== Sys2Proof/Machine/DataProcessing.lean ====
section
/-! DEFINITION. The sixteen data-processing instructions (47_data_processing.md R165 to R189). All operands are read
from the state before the instruction. -/

namespace Sys2Proof.Machine

/-- `x[Rd] <- result`, and the logical flags if S = 1 (47_data_processing.md R169). -/
def logicalWrite (a : DpArgs) (result : Word) (shifterCarry : Bool) (s : State) : State :=
  let t := s.setReg a.rd result
  if a.s then t.setLogicFlags result shifterCarry else t

/-- `x[Rd] <- result`, and the arithmetic flags if S = 1 (47_data_processing.md R167). -/
def arithmeticWrite (a : DpArgs) (sum : Sum) (s : State) : State :=
  let t := s.setReg a.rd sum.result
  if a.s then t.setArithFlags sum else t

/-- AND (R170). -/
def execAnd (a : DpArgs) (s : State) : Outcome :=
  let o := shifterOperand a.op2 s
  .next (logicalWrite a (s.reg a.rn &&& o.value) o.carry s)

/-- EOR (R171). -/
def execEor (a : DpArgs) (s : State) : Outcome :=
  let o := shifterOperand a.op2 s
  .next (logicalWrite a (s.reg a.rn ^^^ o.value) o.carry s)

/-- SUB: `rn + NOT op2 + 1` (R172). -/
def execSub (a : DpArgs) (s : State) : Outcome :=
  .next (arithmeticWrite a (addWithCarry (s.reg a.rn) (~~~(shifterOperand a.op2 s).value) true) s)

/-- RSB: `op2 + NOT rn + 1` (R173). -/
def execRsb (a : DpArgs) (s : State) : Outcome :=
  .next (arithmeticWrite a (addWithCarry (shifterOperand a.op2 s).value (~~~(s.reg a.rn)) true) s)

/-- ADD (R174). -/
def execAdd (a : DpArgs) (s : State) : Outcome :=
  .next (arithmeticWrite a (addWithCarry (s.reg a.rn) (shifterOperand a.op2 s).value false) s)

/-- ADC: the carry-in is the current C flag, not the shifter's carry-out (R175). -/
def execAdc (a : DpArgs) (s : State) : Outcome :=
  .next (arithmeticWrite a (addWithCarry (s.reg a.rn) (shifterOperand a.op2 s).value (s.flag .c)) s)

/-- SBC: `rn + NOT op2 + C` (R176, R187). -/
def execSbc (a : DpArgs) (s : State) : Outcome :=
  .next (arithmeticWrite a (addWithCarry (s.reg a.rn) (~~~(shifterOperand a.op2 s).value) (s.flag .c)) s)

/-- RSC: `op2 + NOT rn + C` (R177, R187). -/
def execRsc (a : DpArgs) (s : State) : Outcome :=
  .next (arithmeticWrite a (addWithCarry (shifterOperand a.op2 s).value (~~~(s.reg a.rn)) (s.flag .c)) s)

/-- TST: the flags of AND, whatever S is; no register is written (R168, R178). -/
def execTst (a : DpArgs) (s : State) : Outcome :=
  let o := shifterOperand a.op2 s
  .next (s.setLogicFlags (s.reg a.rn &&& o.value) o.carry)

/-- TEQ: the flags of EOR, whatever S is; no register is written (R168, R179). -/
def execTeq (a : DpArgs) (s : State) : Outcome :=
  let o := shifterOperand a.op2 s
  .next (s.setLogicFlags (s.reg a.rn ^^^ o.value) o.carry)

/-- CMP: the flags of SUB, whatever S is; no register is written (R168, R180). -/
def execCmp (a : DpArgs) (s : State) : Outcome :=
  .next (s.setArithFlags (addWithCarry (s.reg a.rn) (~~~(shifterOperand a.op2 s).value) true))

/-- CMN: the flags of ADD, whatever S is; no register is written (R168, R181). -/
def execCmn (a : DpArgs) (s : State) : Outcome :=
  .next (s.setArithFlags (addWithCarry (s.reg a.rn) (shifterOperand a.op2 s).value false))

/-- ORR (R182). -/
def execOrr (a : DpArgs) (s : State) : Outcome :=
  let o := shifterOperand a.op2 s
  .next (logicalWrite a (s.reg a.rn ||| o.value) o.carry s)

/-- MOV: Rn is ignored (R183). -/
def execMov (a : DpArgs) (s : State) : Outcome :=
  let o := shifterOperand a.op2 s
  .next (logicalWrite a o.value o.carry s)

/-- BIC (R184). -/
def execBic (a : DpArgs) (s : State) : Outcome :=
  let o := shifterOperand a.op2 s
  .next (logicalWrite a (s.reg a.rn &&& ~~~o.value) o.carry s)

/-- MVN: Rn is ignored (R185). -/
def execMvn (a : DpArgs) (s : State) : Outcome :=
  let o := shifterOperand a.op2 s
  .next (logicalWrite a (~~~o.value) o.carry s)

end Sys2Proof.Machine
end

