-- ==== Sys2Proof/Machine/LoadStore.lean ====
section
/-! DEFINITION. LDR, LDRB, STR, STRB and the unsupported form (46_load_store.md R155 to R161). -/

namespace Sys2Proof.Machine

/-- The order of every load and store: the resolver with its writeback, then the access, or the halt of the
unsupported form (46_load_store.md R159). -/
def loadStore (a : LsArgs) (s : State) (access : Word → State → Outcome) : Outcome :=
  match resolveAddress a s with
  | .unsupported => .next s.raiseHalt
  | .access addr next => access addr next

/-- LDR: the loaded word is written after the writeback, so it wins where Rd is Rn (R155, R159). -/
def execLdr (a : LsArgs) (s : State) : Outcome :=
  loadStore a s fun addr next =>
    match s.memRead32 addr with
    | some v => .next (next.setReg a.rd v)
    | none => .fault (.fatal .load addr)

/-- LDRB: the byte, zero-extended (R156). -/
def execLdrb (a : LsArgs) (s : State) : Outcome :=
  loadStore a s fun addr next =>
    match s.memRead8 addr with
    | some b => .next (next.setReg a.rd (b.zeroExtend 32))
    | none => .fault (.fatal .load addr)

/-- STR: the stored word is Rd's value before the instruction (R157). -/
def execStr (a : LsArgs) (s : State) : Outcome :=
  loadStore a s fun addr next =>
    match next.memWrite32 addr (s.reg a.rd) with
    | some t => .next t
    | none => .fault (.fatal .store addr)

/-- STRB: the low 8 bits of Rd's value before the instruction (R158). -/
def execStrb (a : LsArgs) (s : State) : Outcome :=
  loadStore a s fun addr next =>
    match next.memWrite8 addr ((s.reg a.rd).extractLsb' 0 8) with
    | some t => .next t
    | none => .fault (.fatal .store addr)

/-- P = 0, W = 1: the halt, with no address computed and nothing accessed or written (R160). -/
def execLsUnsupported (_ : LsUnsupportedArgs) (s : State) : Outcome := .next s.raiseHalt

end Sys2Proof.Machine
end

