-- ==== Sys2Proof/Machine/Multiply.lean ====
section
/-! DEFINITION. MUL and MLA (44_multiply.md R145 to R147). -/

namespace Sys2Proof.Machine

/-- `x[Rd] <- result`, and the multiply flags if S = 1 (44_multiply.md R147). -/
def multiplyWrite (a : MulArgs) (result : Word) (s : State) : State :=
  let t := s.setReg a.rd result
  if a.s then t.setMulFlags result else t

/-- MUL: the product modulo 2^32 (R145). -/
def execMul (a : MulArgs) (s : State) : Outcome :=
  .next (multiplyWrite a (BitVec.ofNat 32 ((s.reg a.rm).toNat * (s.reg a.rs).toNat)) s)

/-- MLA: the product plus the accumulate register, modulo 2^32 (R146). -/
def execMla (a : MulArgs) (s : State) : Outcome :=
  .next (multiplyWrite a (BitVec.ofNat 32 ((s.reg a.rm).toNat * (s.reg a.rs).toNat + (s.reg a.rn).toNat)) s)

end Sys2Proof.Machine
end

