-- ==== Sys2Proof/Machine/Dispatch.lean ====
section
/-! DEFINITION. The dispatcher: `Execute(instr, cur, next, mem)` of 48_cycle_engine.md R208. The condition gate stands
before it and the advance of the program counter after it, both in the cycle engine (R205, R206). -/

namespace Sys2Proof.Machine

def exec (i : Instr) (s : State) : Host.Outcome State Fault Refusal :=
  match i with
  | .swi a => Sys2Proof.Machine.execSwi a s
  | .mul a => Sys2Proof.Machine.execMul a s
  | .mla a => Sys2Proof.Machine.execMla a s
  | .b a => Sys2Proof.Machine.execB a s
  | .bl a => Sys2Proof.Machine.execBl a s
  | .lsUnsupported a => Sys2Proof.Machine.execLsUnsupported a s
  | .ldr a => Sys2Proof.Machine.execLdr a s
  | .ldrb a => Sys2Proof.Machine.execLdrb a s
  | .str a => Sys2Proof.Machine.execStr a s
  | .strb a => Sys2Proof.Machine.execStrb a s
  | .and a => Sys2Proof.Machine.execAnd a s
  | .eor a => Sys2Proof.Machine.execEor a s
  | .sub a => Sys2Proof.Machine.execSub a s
  | .rsb a => Sys2Proof.Machine.execRsb a s
  | .add a => Sys2Proof.Machine.execAdd a s
  | .adc a => Sys2Proof.Machine.execAdc a s
  | .sbc a => Sys2Proof.Machine.execSbc a s
  | .rsc a => Sys2Proof.Machine.execRsc a s
  | .tst a => Sys2Proof.Machine.execTst a s
  | .teq a => Sys2Proof.Machine.execTeq a s
  | .cmp a => Sys2Proof.Machine.execCmp a s
  | .cmn a => Sys2Proof.Machine.execCmn a s
  | .orr a => Sys2Proof.Machine.execOrr a s
  | .mov a => Sys2Proof.Machine.execMov a s
  | .bic a => Sys2Proof.Machine.execBic a s
  | .mvn a => Sys2Proof.Machine.execMvn a s
  | .unrecognised cond bits => Sys2Proof.Machine.execUnrecognised cond bits s

end Sys2Proof.Machine
end

