-- ==== Sys2Proof/Machine/Engine.lean ====
section
/-! DEFINITION. The cycle engine (48_cycle_engine.md R200), over the executor it runs. -/

namespace Sys2Proof.Machine

/-- The fetch: `MemRead(x[15], 4)` (48_cycle_engine.md R202). -/
def fetch (s : State) : Option Word := s.memRead32 s.pc

/-- The condition gate: an instruction whose condition fails is not executed (48_cycle_engine.md R205; 40_condition.md
R92). -/
def gate (execute : Instr → State → Outcome) (i : Instr) (s : State) : Outcome :=
  if conditionPassed i.cond s then execute i s else .next s

/-- The end of a cycle: the program counter advances and the next state is committed; a Fatal commits nothing
(48_cycle_engine.md R206, R207, R210). -/
def commit : Outcome → Outcome
  | .next t => .next t.advancePc
  | .fault r => .fault r
  | .refused r => .refused r

/-- One cycle (48_cycle_engine.md R200): the halted check before everything, then fetch, decode, gate, execute,
advance, commit. -/
def cycle (execute : Instr → State → Outcome) (s : State) : Outcome :=
  if s.halted then .next s
  else
    match fetch s with
    | some w => commit (gate execute (decodeWord w) s)
    | none => .fault (.fatal .fetch s.pc)

end Sys2Proof.Machine
end

