-- ==== Sys2Proof/Machine/Placement.lean ====
section
/-! DEFINITION. Placing an instruction where the core fetches its next one (assumption log 18). -/

namespace Sys2Proof.Machine

/-- The state in which the next fetch reads `w`: the word is stored at the program counter, big-endian
(20_memory.md R49). The fetch needs a running core and a mapped program counter, so a halted core is set running and
a program counter from which no word can be fetched is set to TEXT_BASE. -/
def placeWord (s : State) (w : Word) : State :=
  let r : State := { s with halted := false }
  let t := if accessible r.params r.pc.toNat 4 then r
    else r.setReg Config.pcIndex (BitVec.ofNat 32 r.params.textBase)
  t.setMem (Memory.writeWord t.mem t.pc.toNat w)

end Sys2Proof.Machine
end

