-- ==== Sys2Proof/Machine/Step.lean ====
section
/-! DEFINITION. One step: one `cpu_cycle` (48_cycle_engine.md R200). -/

namespace Sys2Proof.Machine

/-- One cycle of the core. A halted core steps to itself (48_cycle_engine.md R201). -/
def step (s : State) : Host.Outcome State Fault Refusal := cycle exec s

/-- The state in which the next step fetches and runs the instruction whose `nbits` lowest bits are `w` and whose
other bits are 0. It stands for the host's `load_program` (assumption log 18). -/
def State.withFetchWord (s : State) (nbits w : Nat) : State := placeWord s (BitVec.ofNat 32 (w % 2 ^ nbits))

end Sys2Proof.Machine
end

