-- ==== Sys2Proof/Machine/Assembler.lean ====
section
/-! DEFINITION. The customary assembler syntax of 30_encoding.md R83 as data, and the fields it assembles to. Text is not
modelled (assumption log 24). -/

namespace Sys2Proof.Machine

/-- `<operand2>` (30_encoding.md R83). -/
inductive Operand2Syntax where
  /-- `#<value>`. -/
  | const (value : Word)
  /-- `Rm`. -/
  | reg (rm : RegNum)
  /-- `Rm, <shift> #n`. -/
  | shifted (rm : RegNum) (type : ShiftType) (n : Nat)
  /-- `Rm, RRX`. -/
  | rrx (rm : RegNum)
  /-- `Rm, <shift> Rs`. -/
  | shiftedByReg (rm : RegNum) (type : ShiftType) (rs : RegNum)
  deriving DecidableEq, Repr

/-- The offset of an `<address>` (30_encoding.md R83). -/
inductive OffsetSyntax where
  /-- `#<offset12>`. -/
  | const (n : Nat)
  /-- `Rm`. -/
  | reg (rm : RegNum)
  /-- `Rm, <shift> #n`. -/
  | shifted (rm : RegNum) (type : ShiftType) (n : Nat)
  /-- `Rm, RRX`. -/
  | rrx (rm : RegNum)
  deriving DecidableEq, Repr

/-- `<address>` (30_encoding.md R83); `up` is the sign `+`. -/
inductive AddressSyntax where
  /-- `[Rn]`. -/
  | base (rn : RegNum)
  /-- `[Rn, (+ or -) offset]`, with `!` if `writeback`. -/
  | offset (rn : RegNum) (up : Bool) (o : OffsetSyntax) (writeback : Bool)
  /-- `[Rn], (+ or -) offset`. -/
  | postIndexed (rn : RegNum) (up : Bool) (o : OffsetSyntax)
  deriving DecidableEq, Repr

/-- The instructions written `<op> Rd, Rn, <operand2>`. -/
inductive AluOp where
  | and | eor | sub | rsb | add | adc | sbc | rsc | orr | bic
  deriving DecidableEq, Repr

/-- The instructions written `<op> Rn, <operand2>`. -/
inductive CompareOp where
  | tst | teq | cmp | cmn
  deriving DecidableEq, Repr

/-- An instruction as an assembler's input writes it (30_encoding.md R83). An absent condition is `Cond.al`. -/
inductive AsmInstr where
  | alu (op : AluOp) (cond : Cond) (s : Bool) (rd rn : RegNum) (op2 : Operand2Syntax)
  | mov (cond : Cond) (s : Bool) (rd : RegNum) (op2 : Operand2Syntax)
  | mvn (cond : Cond) (s : Bool) (rd : RegNum) (op2 : Operand2Syntax)
  | compare (op : CompareOp) (cond : Cond) (rn : RegNum) (op2 : Operand2Syntax)
  | mul (cond : Cond) (s : Bool) (rd rm rs : RegNum)
  | mla (cond : Cond) (s : Bool) (rd rm rs rn : RegNum)
  | b (cond : Cond) (target : Word)
  | bl (cond : Cond) (target : Word)
  | ldr (cond : Cond) (byte : Bool) (rd : RegNum) (address : AddressSyntax)
  | str (cond : Cond) (byte : Bool) (rd : RegNum) (address : AddressSyntax)
  /-- LDRT, LDRBT, STRT, STRBT: `Rd, [Rn], (+ or -) offset`. -/
  | userMode (cond : Cond) (load byte : Bool) (rd rn : RegNum) (up : Bool) (o : OffsetSyntax)
  | swi (cond : Cond) (imm24 : BitVec 24)
  deriving DecidableEq, Repr

/-- The amount field of a shift by an immediate: LSL 0 to 31, LSR and ASR 1 to 32 with 32 encoded as 0, ROR 1 to 31. -/
def assembleAmount (type : ShiftType) (n : Nat) : Option (BitVec 5) :=
  match type with
  | .lsl => if n ≤ 31 then some (BitVec.ofNat 5 n) else none
  | .lsr | .asr => if 1 ≤ n ∧ n ≤ 32 then some (BitVec.ofNat 5 n) else none
  | .ror => if 1 ≤ n ∧ n ≤ 31 then some (BitVec.ofNat 5 n) else none

/-- The fields `rot` and `imm8` of a constant, with the least `rot` that does; `none` where the constant is no 8-bit
value rotated right by an even amount. -/
def assembleConstant (value : Word) : Option (BitVec 4 × BitVec 8) :=
  ((List.range 16).find? fun r => decide ((value.rotateLeft (2 * r)).toNat < 256)).map fun r =>
    (BitVec.ofNat 4 r, (value.rotateLeft (2 * r)).extractLsb' 0 8)

/-- Operand 2. -/
def assembleOperand2 : Operand2Syntax → Option Operand2
  | .const value => (assembleConstant value).map fun f => .imm f.1 f.2
  | .reg rm => some (.shiftImm 0#5 .lsl rm)
  | .shifted rm type n => (assembleAmount type n).map fun k => .shiftImm k type rm
  | .rrx rm => some (.shiftImm 0#5 .ror rm)
  | .shiftedByReg rm type rs => some (.shiftReg rs false type rm)

/-- The offset of a load or store. -/
def assembleOffset : OffsetSyntax → Option Offset
  | .const n => if n < 2 ^ 12 then some (.imm (BitVec.ofNat 12 n)) else none
  | .reg rm => some (.scaled 0#5 .lsl false rm)
  | .shifted rm type n => (assembleAmount type n).map fun k => .scaled k type false rm
  | .rrx rm => some (.scaled 0#5 .ror false rm)

/-- The fields of LDR, LDRB, STR and STRB. -/
def assembleAddress (cond : Cond) (rd : RegNum) : AddressSyntax → Option LsArgs
  | .base rn => some ⟨cond, true, true, false, rn, rd, .imm 0#12⟩
  | .offset rn up o writeback => (assembleOffset o).map fun f => ⟨cond, true, up, writeback, rn, rd, f⟩
  | .postIndexed rn up o => (assembleOffset o).map fun f => ⟨cond, false, up, false, rn, rd, f⟩

/-- `imm24 = ((target - address - BRANCH_BIAS) >> 2)[23:0]` (30_encoding.md R83). -/
def assembleTarget (address target : Word) : BitVec 24 := (target - address - branchBias).extractLsb' 2 24

/-- The instruction of a data-processing operation. -/
def AluOp.instr : AluOp → DpArgs → Instr
  | .and => .and | .eor => .eor | .sub => .sub | .rsb => .rsb | .add => .add | .adc => .adc | .sbc => .sbc
  | .rsc => .rsc | .orr => .orr | .bic => .bic

/-- The instruction of a compare. -/
def CompareOp.instr : CompareOp → DpArgs → Instr
  | .tst => .tst | .teq => .teq | .cmp => .cmp | .cmn => .cmn

/-- The instruction an assembler makes of its input at an address (30_encoding.md R83): the Rn field of MOV and MVN, the
Rd field of the compares and bits 15:12 of MUL are 0000, the S bit of the compares is 1. -/
def assemble (address : Word) : AsmInstr → Option Instr
  | .alu op cond s rd rn op2 => (assembleOperand2 op2).map fun o => op.instr ⟨cond, s, rn, rd, o⟩
  | .mov cond s rd op2 => (assembleOperand2 op2).map fun o => .mov ⟨cond, s, 0, rd, o⟩
  | .mvn cond s rd op2 => (assembleOperand2 op2).map fun o => .mvn ⟨cond, s, 0, rd, o⟩
  | .compare op cond rn op2 => (assembleOperand2 op2).map fun o => op.instr ⟨cond, true, rn, 0, o⟩
  | .mul cond s rd rm rs => some (.mul ⟨cond, s, rd, 0, rs, rm⟩)
  | .mla cond s rd rm rs rn => some (.mla ⟨cond, s, rd, rn, rs, rm⟩)
  | .b cond target => some (.b ⟨cond, assembleTarget address target⟩)
  | .bl cond target => some (.bl ⟨cond, assembleTarget address target⟩)
  | .ldr cond byte rd a => (assembleAddress cond rd a).map fun f => if byte then .ldrb f else .ldr f
  | .str cond byte rd a => (assembleAddress cond rd a).map fun f => if byte then .strb f else .str f
  | .userMode cond load byte rd rn up o =>
    (assembleOffset o).map fun f => .lsUnsupported ⟨cond, up, byte, load, rn, rd, f⟩
  | .swi cond imm24 => some (.swi ⟨cond, imm24⟩)

end Sys2Proof.Machine
end

