-- ==== Sys2Proof/Machine/HostInterface.lean ====
section
/-! DEFINITION. The ten operations the core offers to its host (50_host_interface.md R215 to R227), each a function on
a session. They land between steps only (R226); none of them is part of `step` (assumption log 21). -/

namespace Sys2Proof.Machine

/-- The core as its host sees it. The core does not record a Fatal (10_state.md R36), so the session does. -/
structure Session where
  core : State
  /-- A Fatal has been raised and neither `initialize` nor `reset_cpu` has run since (60_exceptions.md R233). -/
  stuck : Bool
  deriving DecidableEq, Repr

/-- The outcome of a cycle (48_cycle_engine.md R209). -/
inductive Report where
  | ok
  /-- The instruction of this cycle set the halted flag. -/
  | halt
  /-- The core was halted before the cycle. -/
  | halted
  /-- A fetch or data access raised Fatal, in this cycle or before it. -/
  | fatal
  deriving DecidableEq, Repr

/-- The read-only snapshot of `get_cpu_state` (50_host_interface.md R225). -/
structure CpuState where
  regs : Vector Word 16
  cpsr : Word
  halted : Bool
  deriving DecidableEq, Repr

/-- The ten operations (50_host_interface.md R215). -/
inductive HostOp where
  | initialise
  | resetCpu
  | loadProgram (words : List Word)
  | memRead32 (address : Word)
  | memWrite32 (address value : Word)
  | memRead8 (address : Word)
  | memWrite8 (address value : Word)
  | cpuCycle
  | getCpuState
  | setReg (regNum : RegNum) (value : Word)
  deriving DecidableEq, Repr

/-- What an operation answers. -/
inductive Reply where
  | done
  | word (value : Word)
  | byte (value : Byte)
  | report (r : Report)
  | snapshot (c : CpuState)
  /-- The operation raised `Fatal(addr)` (20_memory.md R42). -/
  | fatal (addr : Word)
  deriving DecidableEq, Repr

/-- `reset_cpu`: registers and status word zero, the program counter at TEXT_BASE, Running; memory is not touched
(50_host_interface.md R217). -/
def resetCpu (s : State) : State :=
  { s with
    regs := (Vector.replicate 16 0#32).set 15 (BitVec.ofNat 32 s.params.textBase)
    cpsr := 0#32
    halted := false }

/-- `initialize`: every byte of both regions zero, then `reset_cpu` (50_host_interface.md R216). The draws of MUL_C go
on from where they were (assumption log 3). -/
def initialise (s : State) : State := resetCpu (s.setMem [])

/-- The words of a program stored from word `i` of the text region on. A word that does not fit in the text region is
Fatal, and the words before it stay written (50_host_interface.md R218). -/
def loadWords : List Word → Nat → State → State × Option Word
  | [], _, s => (s, none)
  | w :: ws, i, s =>
    if 4 * (i + 1) ≤ s.params.textSize then
      loadWords ws (i + 1) (s.setMem (Memory.writeWord s.mem (s.params.textBase + 4 * i) w))
    else (s, some (BitVec.ofNat 32 (s.params.textBase + 4 * i)))

/-- The report of a cycle that started in `s` (48_cycle_engine.md R209). -/
def reportOf (s t : State) : Report := if s.halted then .halted else if t.halted then .halt else .ok

/-- `cpu_cycle` (50_host_interface.md R223): one step, with its report. A Fatal changes nothing and leaves the session
stuck, and a stuck session answers FATAL to every further cycle (48_cycle_engine.md R210; 60_exceptions.md R233). -/
def cpuCycle (h : Session) : Reply × Session :=
  if h.stuck then (.report .fatal, h)
  else
    match step h.core with
    | .next t => (.report (reportOf h.core t), { h with core := t })
    | .fault _ | .refused _ => (.report .fatal, { h with stuck := true })

/-- A memory operation that raised Fatal: no effect on the core (60_exceptions.md R233). -/
def hostFatal (h : Session) (address : Word) : Reply × Session := (.fatal address, { h with stuck := true })

/-- One host operation (50_host_interface.md R216 to R225). All but `cpu_cycle` work alike on a running, a halted and a
stuck core (R226). -/
def hostStep (op : HostOp) (h : Session) : Reply × Session :=
  match op with
  | .initialise => (.done, { core := initialise h.core, stuck := false })
  | .resetCpu => (.done, { core := resetCpu h.core, stuck := false })
  | .loadProgram words =>
    match loadWords words 0 h.core with
    | (t, none) => (.done, { h with core := t })
    | (t, some addr) => (.fatal addr, { core := t, stuck := true })
  | .memRead32 address =>
    match h.core.memRead32 address with
    | some v => (.word v, h)
    | none => hostFatal h address
  | .memWrite32 address value =>
    match h.core.memWrite32 address value with
    | some t => (.done, { h with core := t })
    | none => hostFatal h address
  | .memRead8 address =>
    match h.core.memRead8 address with
    | some v => (.byte v, h)
    | none => hostFatal h address
  | .memWrite8 address value =>
    match h.core.memWrite8 address (value.extractLsb' 0 8) with
    | some t => (.done, { h with core := t })
    | none => hostFatal h address
  | .cpuCycle => cpuCycle h
  | .getCpuState => (.snapshot ⟨h.core.regs, h.core.cpsr, h.core.halted⟩, h)
  | .setReg regNum value => (.done, { h with core := h.core.setReg regNum value })

/-- The session every run starts from: the result of `initialize` (70_reset_and_hazards.md R252). -/
def Session.start : Session := { core := State.reset, stuck := false }

/-- A run of the host: a finite sequence of operations (50_host_interface.md R215). -/
def hostRun : List HostOp → Session → Session
  | [], h => h
  | op :: ops, h => hostRun ops (hostStep op h).2

end Sys2Proof.Machine
end

