-- ==== Sys2Proof/Safety.lean ====
section
/-! DEFINITION. What counts as a legal state and a safe run, in the terms the claims use. -/

namespace Sys2Proof.Machine

/-- Every listed byte of memory lies in a region: addresses outside both regions hold nothing (10_state.md R35). -/
abbrev State.memMapped (s : State) : Prop := ∀ c ∈ s.mem, regionOf s.params c.1 ≠ none

/-- The invariant of the machine: sane region parameters (00_scope.md R7), memory in canonical form and inside the
regions (10_state.md R35), the unused bits of the status word zero (10_state.md R30). -/
abbrev State.wf (s : State) : Prop :=
  s.params.wf ∧ Memory.wf s.mem ∧ s.memMapped ∧ s.cpsr.extractLsb' 0 28 = 0#28

/-- The states that steps alone reach from `s`. -/
inductive Reaches (s : State) : State → Prop
  | refl : Reaches s s
  | next {t u : State} (r : Reaches s t) (h : step t = .next u) : Reaches s u

/-- A safe run: no step that the run reaches is Fatal (60_exceptions.md R233). -/
def Safe (s : State) : Prop := ∀ t, Reaches s t → ∃ u, step t = .next u

/-- A run that halts: some reached state has the halted flag set (60_exceptions.md R231). -/
def Halts (s : State) : Prop := ∃ t, Reaches s t ∧ t.halted = true

end Sys2Proof.Machine
end

