-- ==== Sys2Proof/Certificates/Slice0/Obligations.lean ====
section
/-! DEFINITION. The statements for the provers. The vocabulary they share stands first, in `Sys2Proof.Claims`. -/

namespace Sys2Proof.Claims

open Sys2Proof.Machine

/-- Everything but the listed registers and flags is unchanged: the other registers, the other flags, the unused bits
of the status word, the halted flag, the parameters, and every byte of memory. -/
def Frame (s t : State) (regs : List RegNum) (flags : List Flag) : Prop :=
  (∀ q, q ∉ regs → t.reg q = s.reg q) ∧ (∀ f, f ∉ flags → t.flag f = s.flag f) ∧
  t.cpsr.extractLsb' 0 28 = s.cpsr.extractLsb' 0 28 ∧ t.halted = s.halted ∧ t.params = s.params ∧
  ∀ a, t.memRead8 a = s.memRead8 a

/-- The halt of `s`: the halted flag is set and nothing else differs (60_exceptions.md R231). -/
def HaltOf (s t : State) : Prop :=
  t.halted = true ∧ (∀ q, t.reg q = s.reg q) ∧ t.cpsr = s.cpsr ∧ t.params = s.params ∧ ∀ a, t.memRead8 a = s.memRead8 a

/-- The `n` bytes from `a` on all lie in one region. -/
def InRegion (p : Params) (a n : Nat) : Prop :=
  (p.textBase ≤ a ∧ a + n ≤ p.textBase + p.textSize) ∨ (p.dataBase ≤ a ∧ a + n ≤ p.dataBase + p.dataSize)

/-- The address `k` bytes after `a`. -/
def byteAddr (a : Word) (k : Nat) : Word := BitVec.ofNat 32 (a.toNat + k)

/-- The base register, in the two modes that write it back (42_address_resolver.md R126). -/
def basesWritten (a : LsArgs) : List RegNum := if a.p = a.w then [a.rn] else []

/-- N and Z describe the result `v` (47_data_processing.md R167, R169). -/
def NZOf (t : State) (v : Word) : Prop := t.flag .n = v.getLsbD 31 ∧ (t.flag .z = true ↔ v.toNat = 0)

/-- The mathematical value `x` is outside the range of a 32-bit two's-complement number. -/
def SignedOverflow (x : Int) : Prop := x < -2 ^ 31 ∨ 2 ^ 31 ≤ x

/-- 1 for a set flag, 0 for a clear one. -/
def ofFlag (b : Bool) : Nat := b.toNat

/-- The outcome of a logical instruction whose bit `k` is `f` of the operands' bits `k`: Rd takes the result; with
S = 1, N and Z describe it and C is the shifter's carry-out; everything else, V included, is unchanged. -/
def LogicalOutcome (o : Outcome) (a : DpArgs) (s : State) (f : Bool → Bool → Bool) : Prop :=
  ∃ t v, o = .next t ∧
    (∀ k < 32, v.getLsbD k = f ((s.reg a.rn).getLsbD k) ((shifterOperand a.op2 s).value.getLsbD k)) ∧
    t.reg a.rd = v ∧
    (a.s = true → NZOf t v ∧ t.flag .c = (shifterOperand a.op2 s).carry) ∧
    Frame s t [a.rd] (if a.s then [.n, .z, .c] else [])

/-- The outcome of an arithmetic instruction that computes `u` in the natural numbers modulo 2^32 (a carry if
`carry`) and `x` in the integers: Rd takes the result; with S = 1 the four flags describe it. -/
def ArithmeticOutcome (o : Outcome) (a : DpArgs) (s : State) (u : Nat) (carry : Prop) (x : Int) : Prop :=
  ∃ t v, o = .next t ∧ v.toNat = u % 2 ^ 32 ∧ t.reg a.rd = v ∧
    (a.s = true → NZOf t v ∧ (t.flag .c = true ↔ carry) ∧ (t.flag .v = true ↔ SignedOverflow x)) ∧
    Frame s t [a.rd] (if a.s then [.n, .z, .c, .v] else [])

/-- The outcome of a compare: the flags of the arithmetic instruction, whatever S is, and no register. -/
def CompareOutcome (o : Outcome) (s : State) (u : Nat) (carry : Prop) (x : Int) : Prop :=
  ∃ t v, o = .next t ∧ v.toNat = u % 2 ^ 32 ∧
    NZOf t v ∧ (t.flag .c = true ↔ carry) ∧ (t.flag .v = true ↔ SignedOverflow x) ∧ Frame s t [] [.n, .z, .c, .v]

/-- The outcome of a test: the flags of the logical instruction, whatever S is, and no register. -/
def TestOutcome (o : Outcome) (a : DpArgs) (s : State) (f : Bool → Bool → Bool) : Prop :=
  ∃ t v, o = .next t ∧
    (∀ k < 32, v.getLsbD k = f ((s.reg a.rn).getLsbD k) ((shifterOperand a.op2 s).value.getLsbD k)) ∧
    NZOf t v ∧ t.flag .c = (shifterOperand a.op2 s).carry ∧ Frame s t [] [.n, .z, .c]

/-- The outcome of a multiply that computes `u` in the natural numbers. With S = 1 N and Z describe the result and C is
a free value, of which nothing is said; V is unchanged. -/
def MultiplyOutcome (o : Outcome) (a : MulArgs) (s : State) (u : Nat) : Prop :=
  ∃ t v, o = .next t ∧ v.toNat = u % 2 ^ 32 ∧ t.reg a.rd = v ∧ (a.s = true → NZOf t v) ∧
    Frame s t [a.rd] (if a.s then [.n, .z, .c] else [])

/-- The instruction `low` with S = 1, then `high` on the state it leaves, compute `f` of two 64-bit numbers. The low
halves are the operands of the first, the high halves those of the second, read as the machine does, after the first; the
two destinations hold the halves of the result. The last two clauses say when the first destination still holds its half
at the end, and when the second's first operand is what it was before both. -/
def DoubleWord (low high : DpArgs → Instr) (f : BitVec 64 → BitVec 64 → BitVec 64) : Prop :=
  ∀ (a b : DpArgs) (s : State), a.s = true →
    ∃ t u, exec (low a) s = .next t ∧ exec (high b) t = .next u ∧
      u.reg b.rd ++ t.reg a.rd =
        f (t.reg b.rn ++ s.reg a.rn) ((shifterOperand b.op2 t).value ++ (shifterOperand a.op2 s).value) ∧
      (a.rd ≠ b.rd → u.reg a.rd = t.reg a.rd) ∧ (b.rn ≠ a.rd → t.reg b.rn = s.reg b.rn)

/-- The flags an instruction may write (the table of 10_state.md R31). -/
def flagsWritten : Instr → List Flag
  | .and a | .eor a | .orr a | .bic a | .mov a | .mvn a => if a.s then [.n, .z, .c] else []
  | .tst _ | .teq _ => [.n, .z, .c]
  | .add a | .adc a | .sub a | .rsb a | .sbc a | .rsc a => if a.s then [.n, .z, .c, .v] else []
  | .cmp _ | .cmn _ => [.n, .z, .c, .v]
  | .mul a | .mla a => if a.s then [.n, .z, .c] else []
  | .b _ | .bl _ | .ldr _ | .ldrb _ | .str _ | .strb _ | .lsUnsupported _ | .swi _ | .unrecognised _ _ => []

/-- The registers an instruction may write (the table of 10_state.md R23). -/
def registersWritten : Instr → List RegNum
  | .and a | .eor a | .orr a | .bic a | .mov a | .mvn a => [a.rd]
  | .add a | .adc a | .sub a | .rsb a | .sbc a | .rsc a => [a.rd]
  | .tst _ | .teq _ | .cmp _ | .cmn _ => []
  | .mul a | .mla a => [a.rd]
  | .b _ => [Config.pcIndex]
  | .bl _ => [Config.lrIndex, Config.pcIndex]
  | .ldr a | .ldrb a => a.rd :: basesWritten a
  | .str a | .strb a => basesWritten a
  | .lsUnsupported _ | .swi _ | .unrecognised _ _ => []

/-- The word of `i` matches a row of the opcode table (30_encoding.md R73). -/
def Matches (i : Instr) (mask pattern : Word) : Prop := encode i &&& mask = pattern

/-- The two instructions that store to memory. -/
def IsStore (i : Instr) : Prop := ∃ a, i = .str a ∨ i = .strb a

/-- The four instructions that access memory. -/
def AccessesMemory (i : Instr) : Prop := ∃ a, i = .ldr a ∨ i = .ldrb a ∨ i = .str a ∨ i = .strb a

/-- The instructions that halt the core in state `s` (60_exceptions.md R230). -/
def IsHalting (i : Instr) (s : State) : Prop :=
  (∃ a, i = .swi a ∧ a.imm24 = s.params.haltImm) ∨ ∃ a, i = .lsUnsupported a

/-- A row of the opcode table: mnemonic, mask, match (30_encoding.md R73). -/
structure Row where
  mnemonic : String
  mask : Word
  pattern : Word

/-- The opcode table in the order of its priorities (30_encoding.md R73). -/
def opcodeTable : List Row :=
  [⟨"SWI", 0x0F000000, 0x0F000000⟩,
   ⟨"MUL", 0x0FE000F0, 0x00000090⟩, ⟨"MLA", 0x0FE000F0, 0x00200090⟩,
   ⟨"B", 0x0F000000, 0x0A000000⟩, ⟨"BL", 0x0F000000, 0x0B000000⟩,
   ⟨"LS_UNSUPPORTED", 0x0D200000, 0x04200000⟩,
   ⟨"LDR", 0x0C500000, 0x04100000⟩, ⟨"LDRB", 0x0C500000, 0x04500000⟩,
   ⟨"STR", 0x0C500000, 0x04000000⟩, ⟨"STRB", 0x0C500000, 0x04400000⟩] ++
  [⟨"AND", 0x0DE00000, 0x00000000⟩, ⟨"EOR", 0x0DE00000, 0x00200000⟩,
   ⟨"SUB", 0x0DE00000, 0x00400000⟩, ⟨"RSB", 0x0DE00000, 0x00600000⟩,
   ⟨"ADD", 0x0DE00000, 0x00800000⟩, ⟨"ADC", 0x0DE00000, 0x00A00000⟩,
   ⟨"SBC", 0x0DE00000, 0x00C00000⟩, ⟨"RSC", 0x0DE00000, 0x00E00000⟩] ++
  [⟨"TST", 0x0DE00000, 0x01000000⟩, ⟨"TEQ", 0x0DE00000, 0x01200000⟩,
   ⟨"CMP", 0x0DE00000, 0x01400000⟩, ⟨"CMN", 0x0DE00000, 0x01600000⟩,
   ⟨"ORR", 0x0DE00000, 0x01800000⟩, ⟨"MOV", 0x0DE00000, 0x01A00000⟩,
   ⟨"BIC", 0x0DE00000, 0x01C00000⟩, ⟨"MVN", 0x0DE00000, 0x01E00000⟩,
   ⟨"UNRECOGNISED", 0x00000000, 0x00000000⟩]

/-- The first row a word matches: `(w & mask) = match` (30_encoding.md R73). -/
def firstRow (w : Word) : Option String := (opcodeTable.find? fun r => w &&& r.mask == r.pattern).map (·.mnemonic)

end Sys2Proof.Claims

open Sys2Proof Sys2Proof.Machine Sys2Proof.Claims

/-! ### Encoding -/

/-- Decoding an encoded well-formed instruction gives it back, with every operand at every value (30_encoding.md
sections 2 to 6; the positions are the spec's general knowledge, assumption log 4). -/
def Obligations.DecodeOfEncodeIsIdentity : Prop := ∀ i : Instr, i.wf = true → decodeWord (encode i) = i

/-- Every word is the encoding of exactly one well-formed instruction, the one the decoder reads: the classification
is total and drops no bit (30_encoding.md sections 2 to 6; assumption logs 4, 5). -/
def Obligations.EveryWordEncodesItsDecoding : Prop :=
  ∀ w : Word, (decodeWord w).wf = true ∧ encode (decodeWord w) = w

/-- The decoder, written by classes and fields, selects the row that the masks and matches of the opcode table select
when they are tried in order (30_encoding.md section 4; assumption log 4). -/
def Obligations.DecoderFollowsOpcodeTable : Prop :=
  ∀ w : Word, firstRow w = some (decodeWord w).mnemonic

/-- Words written out from the encodings decode to the instructions they stand for, one of each class
(30_encoding.md section 3). -/
def Obligations.WordsOfEveryClassDecode : Prop :=
  decodeWord (0b1110_1111_000000000000000000001010#32) = .swi ⟨.al, 10#24⟩ ∧
  decodeWord (0b1110_000000_1_1_0000_0011_0010_1001_0001#32) = .mla ⟨.al, true, 0, 3, 2, 1⟩ ∧
  decodeWord (0b0001_101_1_000000000000000000000010#32) = .bl ⟨.ne, 2#24⟩ ∧
  decodeWord (0b1110_01_0_0_1_0_0_1_0001_0000_000000000100#32) = .ldr ⟨.al, false, true, false, 1, 0, .imm 4#12⟩ ∧
  decodeWord (0b1110_01_1_1_1_1_0_0_0001_0000_00010_00_0_0010#32)
    = .strb ⟨.al, true, true, false, 1, 0, .scaled 2#5 .lsl false 2⟩ ∧
  decodeWord (0b1110_00_0_0010_1_0001_0000_0011_0_01_1_0010#32) = .sub ⟨.al, true, 1, 0, .shiftReg 3 false .lsr 2⟩ ∧
  decodeWord (0b1110_100_0101111011000000000000000#32) = .unrecognised .al 0x8BD8000#28

/-- A well-formed instruction's four bytes, most significant first, decode to it with the following bytes left over,
and no shorter list of bytes decodes (30_encoding.md section 1; 20_memory.md section 2). -/
def Obligations.FourBytesDecodeOneInstruction : Prop :=
  (∀ (i : Instr) (rest : List Byte), i.wf = true → decodeBytes (encodeBytes i ++ rest) = .ok (i, rest)) ∧
  ∀ bytes : List Byte, bytes.length < 4 → decodeBytes bytes = .error .truncated

/-- The fields the core ignores have no effect: Rn of MOV and MVN, bits 15:12 of MUL, Rd and S of the compares, bit 7
of a shift by register, bit 4 of a scaled register offset (30_encoding.md section 6; the spec's decision D13,
assumption log 5). -/
def Obligations.IgnoredFieldsHaveNoEffect : Prop :=
  (∀ (a : DpArgs) (r : RegNum) (s : State),
    exec (.mov { a with rn := r }) s = exec (.mov a) s ∧ exec (.mvn { a with rn := r }) s = exec (.mvn a) s) ∧
  (∀ (a : MulArgs) (r : RegNum) (s : State), exec (.mul { a with rn := r }) s = exec (.mul a) s) ∧
  (∀ (a : DpArgs) (r : RegNum) (b : Bool) (s : State),
    exec (.tst { a with rd := r, s := b }) s = exec (.tst a) s ∧
    exec (.teq { a with rd := r, s := b }) s = exec (.teq a) s ∧
    exec (.cmp { a with rd := r, s := b }) s = exec (.cmp a) s ∧
    exec (.cmn { a with rd := r, s := b }) s = exec (.cmn a) s) ∧
  (∀ (rs rm : RegNum) (b c : Bool) (y : ShiftType) (s : State),
    shifterOperand (.shiftReg rs b y rm) s = shifterOperand (.shiftReg rs c y rm) s) ∧
  ∀ (n : BitVec 5) (y : ShiftType) (b c : Bool) (rm : RegNum) (s : State),
    addressOffset (.scaled n y b rm) s = addressOffset (.scaled n y c rm) s

/-! ### Reset and the invariant -/

/-- What the two resets leave: every register zero but the program counter at TEXT_BASE, the whole status word zero,
halted clear; `initialize` also leaves every byte of the regions zero, `reset_cpu` leaves memory as it was. -/
def Obligations.ResetsLeaveTheStatedValues : Prop :=
  ∀ s t : State, (t = resetCpu s ∨ t = initialise s) →
    (∀ q : RegNum, q ≠ 15 → t.reg q = 0#32) ∧ t.reg 15 = BitVec.ofNat 32 s.params.textBase ∧ t.cpsr = 0#32 ∧
    t.halted = false ∧ t.params = s.params ∧
    (t = resetCpu s → t.mem = s.mem) ∧
    (t = initialise s → ∀ a : Word, InRegion s.params a.toNat 1 → s.params.wf → t.memRead8 a = some 0x00#8)

/-- The machine right after reset, with the reference parameters and with any others the spec allows, meets the
invariant that every step keeps. The reference values are the spec's decisions D1 to D5 (assumption log 1). -/
def Obligations.ResetMeetsInvariant : Prop :=
  State.reset.wf ∧ ∀ p : Params, p.wf → (State.initial p).wf

/-- Every step keeps the invariant: sane parameters, memory in canonical form and inside the regions, the unused bits
of the status word zero (10_state.md sections 3, 5). -/
def Obligations.StepKeepsInvariant : Prop :=
  ∀ s t : State, s.wf → step s = .next t → t.wf

/-- Every host operation keeps the invariant (50_host_interface.md section 2). -/
def Obligations.HostOperationsKeepInvariant : Prop :=
  ∀ (op : HostOp) (h : Session), h.core.wf → (hostStep op h).2.core.wf

/-- In every state, no step changes the unused bits 27:0 of the status word or the parameters (10_state.md section 3). -/
def Obligations.StepPreservesUnusedStatusBits : Prop :=
  ∀ s t : State, step s = .next t →
    t.cpsr.extractLsb' 0 28 = s.cpsr.extractLsb' 0 28 ∧ t.params = s.params

/-- A program counter that is a multiple of 4 stays one, unless the instruction is not a branch and may write
register 15 (10_state.md section 2). -/
def Obligations.ProgramCounterStaysAligned : Prop :=
  ∀ (s t : State) (w : Word), s.pc.toNat % 4 = 0 → fetch s = some w →
    (Config.pcIndex ∈ registersWritten (decodeWord w) → ∃ a, decodeWord w = .b a ∨ decodeWord w = .bl a) →
    step s = .next t → t.pc.toNat % 4 = 0

/-! ### The cycle engine -/

/-- A step of a running core runs the decoded instruction: with a failed condition only the program counter advances;
with a passed one the step is `exec` of the instruction, 4 added to register 15 unless the next state is halted, and a
Fatal of `exec` is the step's. -/
def Obligations.StepRunsDecodedInstruction : Prop :=
  ∀ (s : State) (b0 b1 b2 b3 : Byte) (i : Instr), s.halted = false →
    s.memRead32 (s.reg 15) = some (wordOfBytes b0 b1 b2 b3) → decodeBytes [b0, b1, b2, b3] = .ok (i, []) →
    (conditionPassed i.cond s = false → step s = .next (s.setReg 15 (s.reg 15 + 4#32))) ∧
    (conditionPassed i.cond s = true →
      (∀ t, exec i s = .next t → t.halted = false → step s = .next (t.setReg 15 (t.reg 15 + 4#32))) ∧
      (∀ t, exec i s = .next t → t.halted = true → step s = .next t) ∧
      ∀ r, exec i s = .fault r → step s = .fault r)

/-- A halted core's cycle does nothing and reports HALTED, wherever its program counter points, and no operation of the
host but the two resets sets it running again. -/
def Obligations.HaltedCoreOnlyLeavesByReset : Prop :=
  (∀ s : State, s.halted = true → step s = .next s ∧ hostStep .cpuCycle ⟨s, false⟩ = (.report .halted, ⟨s, false⟩)) ∧
  ∀ (op : HostOp) (h : Session), h.core.halted = true → op ≠ .initialise → op ≠ .resetCpu →
    (hostStep op h).2.core.halted = true

/-- Steps from a halted state reach only that state, so a halted core is safe (48_cycle_engine.md section 1). -/
def Obligations.HaltedStateIsTerminal : Prop :=
  ∀ s : State, s.halted = true → Safe s ∧ ∀ t, Reaches s t → t = s

/-- A running core whose program counter does not address four bytes of one region steps to Fatal, and its session
keeps the state and is stuck (48_cycle_engine.md section 2; the spec's decisions D11, D17, assumption logs 9, 10). -/
def Obligations.UnfetchableWordIsFatal : Prop :=
  ∀ s : State, s.params.wf → s.halted = false → ¬ InRegion s.params (s.reg 15).toNat 4 →
    step s = .fault (.fatal .fetch (s.reg 15)) ∧ hostStep .cpuCycle ⟨s, false⟩ = (.report .fatal, ⟨s, true⟩)

/-- The condition evaluator is the source's table, on the flags of the status word (40_condition.md; log 4 for the
numbering). -/
def Obligations.ConditionsFollowTheTable : Prop :=
  ∀ s : State,
    let n := s.cpsr.getLsbD 31; let z := s.cpsr.getLsbD 30; let c := s.cpsr.getLsbD 29; let v := s.cpsr.getLsbD 28
    (conditionPassed (Cond.ofCode 0b0000#4) s ↔ z = true) ∧ (conditionPassed (Cond.ofCode 0b0001#4) s ↔ z = false) ∧
    (conditionPassed (Cond.ofCode 0b0010#4) s ↔ c = true) ∧ (conditionPassed (Cond.ofCode 0b0011#4) s ↔ c = false) ∧
    (conditionPassed (Cond.ofCode 0b0100#4) s ↔ n = true) ∧ (conditionPassed (Cond.ofCode 0b0101#4) s ↔ n = false) ∧
    (conditionPassed (Cond.ofCode 0b0110#4) s ↔ v = true) ∧ (conditionPassed (Cond.ofCode 0b0111#4) s ↔ v = false) ∧
    (conditionPassed (Cond.ofCode 0b1000#4) s ↔ c = true ∧ z = false) ∧
    (conditionPassed (Cond.ofCode 0b1001#4) s ↔ c = false ∨ z = true) ∧
    (conditionPassed (Cond.ofCode 0b1010#4) s ↔ n = v) ∧ (conditionPassed (Cond.ofCode 0b1011#4) s ↔ n ≠ v) ∧
    (conditionPassed (Cond.ofCode 0b1100#4) s ↔ z = false ∧ n = v) ∧
    (conditionPassed (Cond.ofCode 0b1101#4) s ↔ z = true ∨ n ≠ v) ∧
    (conditionPassed (Cond.ofCode 0b1110#4) s ↔ True) ∧ (conditionPassed (Cond.ofCode 0b1111#4) s ↔ False)

/-- An instruction whose condition, evaluated on the flags before it, fails, the reserved condition included, changes
nothing but the program counter, whatever its class: no halt, no writeback, no access, no Fatal. -/
def Obligations.FailedConditionOnlyAdvances : Prop :=
  ∀ (s : State) (w : Word), s.halted = false → fetch s = some w → conditionPassed (decodeWord w).cond s = false →
    ∃ t, step s = .next t ∧ t.reg 15 = s.reg 15 + 4#32 ∧ Frame s t [15] [] ∧
      hostStep .cpuCycle ⟨s, false⟩ = (.report .ok, ⟨t, false⟩)

/-- A running core becomes halted in a step exactly when a halting SWI or an unsupported load/store passes its
condition, and then nothing else changes, the program counter included, the cycle reports HALT, and every later cycle
reports HALTED and changes nothing. -/
def Obligations.HaltIsPreciseAndHasTwoCauses : Prop :=
  ∀ (s : State), s.halted = false →
    (∀ w, fetch s = some w → conditionPassed (decodeWord w).cond s = true → IsHalting (decodeWord w) s →
      ∃ t, step s = .next t ∧ t.halted = true) ∧
    ∀ t, step s = .next t → t.halted = true →
      (∃ w, fetch s = some w ∧ conditionPassed (decodeWord w).cond s = true ∧ IsHalting (decodeWord w) s) ∧
      HaltOf s t ∧ hostStep .cpuCycle ⟨s, false⟩ = (.report .halt, ⟨t, false⟩) ∧
      hostStep .cpuCycle ⟨t, false⟩ = (.report .halted, ⟨t, false⟩)

/-- The executor is Fatal only in the four instructions that access memory, at the address they resolve, and only where
the bytes of that access, four for LDR and STR and one for LDRB and STRB, do not all lie in one region
(60_exceptions.md section 1; the straddling case is the spec's decision D11, assumption log 9). -/
def Obligations.OnlyMemoryAccessesAreFatal : Prop :=
  ∀ (i : Instr) (s : State) (r : Fault), s.params.wf → exec i s = .fault r →
    ∃ a addr n, resolveAddress a s = .access addr n ∧
      ((i = .ldr a ∧ r = .fatal .load addr ∧ ¬ InRegion s.params addr.toNat 4) ∨
       (i = .ldrb a ∧ r = .fatal .load addr ∧ ¬ InRegion s.params addr.toNat 1) ∨
       (i = .str a ∧ r = .fatal .store addr ∧ ¬ InRegion s.params addr.toNat 4) ∨
       (i = .strb a ∧ r = .fatal .store addr ∧ ¬ InRegion s.params addr.toNat 1))

/-- No instruction is refused: every word a core can fetch has a meaning. That is the model's choice where the spec leaves
or recommends a refusal: the words of no class and the non-halting SWIs (its U1 and U3, assumption log 16), and the words
that the coarse decode of its decision D13 admits (its U2, assumption log 5); its U4 and U7, which recommend one too, are
met by its decisions D23, D8 and D9 (assumption logs 11, 6, 7). -/
def Obligations.NoStepIsRefused : Prop := ∀ (s : State) (r : Refusal), step s ≠ .refused r

/-- An instruction that does not access memory neither reads nor changes it: with another memory it does the same
(20_memory.md section 2; 47_data_processing.md section 3). -/
def Obligations.OtherInstructionsIgnoreMemory : Prop :=
  ∀ (i : Instr) (s : State) (m : Memory), ¬ AccessesMemory i →
    ∃ t, exec i s = .next t ∧ exec i (s.setMem m) = .next (t.setMem m) ∧ t.mem = s.mem

/-- The frame of every instruction, in every form: when it answers a next state, the registers and flags outside the
tables of what it writes, the unused status bits, the parameters and, unless it stores, every byte of memory are
unchanged; only a halting form changes the halted flag; only a flag-setting multiply draws a free value
(10_state.md sections 1, 3). -/
def Obligations.EveryInstructionKeepsItsFrame : Prop :=
  ∀ (i : Instr) (s t : State), exec i s = .next t →
    (∀ q, q ∉ registersWritten i → t.reg q = s.reg q) ∧ (∀ f, f ∉ flagsWritten i → t.flag f = s.flag f) ∧
    t.cpsr.extractLsb' 0 28 = s.cpsr.extractLsb' 0 28 ∧ t.params = s.params ∧
    (i.wf = true → ¬ IsHalting i s → t.halted = s.halted) ∧
    (¬ IsStore i → ∀ a, t.memRead8 a = s.memRead8 a) ∧
    (t.mulDraws ≠ s.mulDraws → ∃ a, (i = .mul a ∨ i = .mla a) ∧ a.s = true)

/-! ### Operands -/

/-- The immediate operand: bit `k` of the value is bit `k + 2 * rot`, modulo 32, of the zero-extended immediate; the
carry-out is the current C for a zero rotation and bit 31 of the value for any other. -/
def Obligations.ImmediateOperandIsRotated : Prop :=
  ∀ (rot : BitVec 4) (imm8 : BitVec 8) (s : State),
    let o := shifterOperand (.imm rot imm8) s
    (∀ k < 32, o.value.getLsbD k = imm8.getLsbD ((k + 2 * rot.toNat) % 32)) ∧
    (rot.toNat = 0 → o.carry = s.flag .c) ∧ (rot.toNat ≠ 0 → o.carry = o.value.getLsbD 31)

/-- LSL and ROR by an immediate amount, and RRX: the value and the carry-out. -/
def Obligations.LeftShiftAndRotateByImmediate : Prop :=
  ∀ (n : BitVec 5) (rm : RegNum) (s : State),
    let v := s.reg rm
    let l := shifterOperand (.shiftImm n .lsl rm) s
    let r := shifterOperand (.shiftImm n .ror rm) s
    l.value.toNat = v.toNat * 2 ^ n.toNat % 2 ^ 32 ∧
    (n.toNat = 0 → l.carry = s.flag .c) ∧ (n.toNat ≠ 0 → l.carry = v.getLsbD (32 - n.toNat)) ∧
    (n.toNat ≠ 0 → (∀ k < 32, r.value.getLsbD k = v.getLsbD ((k + n.toNat) % 32)) ∧
      r.carry = v.getLsbD (n.toNat - 1) ∧ r.carry = r.value.getLsbD 31) ∧
    (n.toNat = 0 → r.value.getLsbD 31 = s.flag .c ∧ (∀ k < 31, r.value.getLsbD k = v.getLsbD (k + 1)) ∧
      r.carry = v.getLsbD 0)

/-- LSR and ASR by an immediate amount: a division by a power of two rounded down, unsigned and signed, an amount of 0
meaning 32. LSR #0 is the spec's decision D14 (assumption log 12). -/
def Obligations.RightShiftsByImmediate : Prop :=
  ∀ (n : BitVec 5) (rm : RegNum) (s : State),
    let v := s.reg rm
    let m := if n.toNat = 0 then 32 else n.toNat
    let l := shifterOperand (.shiftImm n .lsr rm) s
    let r := shifterOperand (.shiftImm n .asr rm) s
    l.value.toNat = v.toNat / 2 ^ m ∧ l.carry = v.getLsbD (m - 1) ∧
    r.value.toInt = v.toInt / (2 : Int) ^ m ∧ r.carry = v.getLsbD (m - 1)

/-- LSL and LSR by a register amount, and the amount 0 of every operator: the amount is the low byte of the register;
32 and more give the value 0 and the carry-out 0. -/
def Obligations.LogicalShiftsByRegister : Prop :=
  ∀ (rs rm : RegNum) (b : Bool) (s : State),
    let v := s.reg rm
    let n := (s.reg rs).toNat % 256
    let l := shifterOperand (.shiftReg rs b .lsl rm) s
    let r := shifterOperand (.shiftReg rs b .lsr rm) s
    (n = 0 → ∀ y, (shifterOperand (.shiftReg rs b y rm) s).value = v ∧
      (shifterOperand (.shiftReg rs b y rm) s).carry = s.flag .c) ∧
    l.value.toNat = v.toNat * 2 ^ n % 2 ^ 32 ∧ (0 < n → n < 32 → l.carry = v.getLsbD (32 - n)) ∧
    (32 ≤ n → l.carry = false) ∧
    r.value.toNat = v.toNat / 2 ^ n ∧ (0 < n → n < 32 → r.carry = v.getLsbD (n - 1)) ∧ (32 ≤ n → r.carry = false)

/-- ASR and ROR by a register amount: a signed division by a power of two rounded down for every amount, and a rotation
by the amount modulo 32, which is not RRX for 0 (the spec's C4 and decision D16, assumption log 12). -/
def Obligations.ArithmeticShiftAndRotateByRegister : Prop :=
  ∀ (rs rm : RegNum) (b : Bool) (s : State),
    let v := s.reg rm
    let n := (s.reg rs).toNat % 256
    let a := shifterOperand (.shiftReg rs b .asr rm) s
    let r := shifterOperand (.shiftReg rs b .ror rm) s
    a.value.toInt = v.toInt / (2 : Int) ^ n ∧ (0 < n → a.carry = v.getLsbD (min n 32 - 1)) ∧
    (∀ k < 32, r.value.getLsbD k = v.getLsbD ((k + n) % 32)) ∧ (0 < n → r.carry = r.value.getLsbD 31)

/-- The address resolver: the offset is the zero-extended immediate or the shifter's value for the same shift, the
direction adds or subtracts it modulo 2^32, and the index mode chooses the address and the writeback. -/
def Obligations.AddressResolverFollowsIndexMode : Prop :=
  ∀ (a : LsArgs) (s : State),
    (∀ n, a.offset = .imm n → (addressOffset a.offset s).toNat = n.toNat) ∧
    (∀ n y b rm, a.offset = .scaled n y b rm →
      addressOffset a.offset s = (shifterOperand (.shiftImm n y rm) s).value) ∧
    (a.u = true → (movedBase a s).toNat = ((s.reg a.rn).toNat + (addressOffset a.offset s).toNat) % 2 ^ 32) ∧
    (a.u = false →
      (movedBase a s).toNat = (2 ^ 32 + (s.reg a.rn).toNat - (addressOffset a.offset s).toNat) % 2 ^ 32) ∧
    (a.p = false → a.w = false → resolveAddress a s = .access (s.reg a.rn) (s.setReg a.rn (movedBase a s))) ∧
    (a.p = true → a.w = true → resolveAddress a s = .access (movedBase a s) (s.setReg a.rn (movedBase a s))) ∧
    (a.p = true → a.w = false → resolveAddress a s = .access (movedBase a s) s) ∧
    (a.p = false → a.w = true → resolveAddress a s = .unsupported)

/-! ### Data processing -/

/-- The logical instructions that write a register, AND, EOR, ORR, MOV, BIC, MVN: what they do, and the opcode their
words carry. -/
def Obligations.LogicalInstructions : Prop :=
  ∀ (a : DpArgs) (s : State),
    Matches (.and a) 0x0DE00000 0x00000000 ∧ Matches (.eor a) 0x0DE00000 0x00200000 ∧
    Matches (.orr a) 0x0DE00000 0x01800000 ∧ Matches (.mov a) 0x0DE00000 0x01A00000 ∧
    Matches (.bic a) 0x0DE00000 0x01C00000 ∧ Matches (.mvn a) 0x0DE00000 0x01E00000 ∧
    LogicalOutcome (exec (.and a) s) a s (fun x y => x && y) ∧ LogicalOutcome (exec (.eor a) s) a s (fun x y => x != y) ∧
    LogicalOutcome (exec (.orr a) s) a s (fun x y => x || y) ∧ LogicalOutcome (exec (.mov a) s) a s (fun _ y => y) ∧
    LogicalOutcome (exec (.bic a) s) a s (fun x y => x && !y) ∧ LogicalOutcome (exec (.mvn a) s) a s (fun _ y => !y)

/-- TST and TEQ write the flags of AND and EOR whatever S is, and no register (the spec's decision D18, log 15). -/
def Obligations.TestInstructions : Prop :=
  ∀ (a : DpArgs) (s : State),
    TestOutcome (exec (.tst a) s) a s (fun x y => x && y) ∧ TestOutcome (exec (.teq a) s) a s (fun x y => x != y)

/-- ADD and ADC: the sum modulo 2^32, the carry of the unsigned sum, the overflow of the signed sum. ADC adds the
current C flag, not the shifter's carry-out. The opcode their words carry is stated too. -/
def Obligations.AdditionInstructions : Prop :=
  ∀ (a : DpArgs) (s : State),
    let x := s.reg a.rn; let y := (shifterOperand a.op2 s).value; let c := ofFlag (s.flag .c)
    Matches (.add a) 0x0DE00000 0x00800000 ∧ Matches (.adc a) 0x0DE00000 0x00A00000 ∧
    ArithmeticOutcome (exec (.add a) s) a s (x.toNat + y.toNat) (2 ^ 32 ≤ x.toNat + y.toNat) (x.toInt + y.toInt) ∧
    ArithmeticOutcome (exec (.adc a) s) a s (x.toNat + y.toNat + c) (2 ^ 32 ≤ x.toNat + y.toNat + c)
      (x.toInt + y.toInt + c)

/-- SUB and RSB: the difference modulo 2^32, C set exactly when there is no borrow, V the signed overflow.
The opcode their words carry is stated too. -/
def Obligations.SubtractionInstructions : Prop :=
  ∀ (a : DpArgs) (s : State),
    let x := s.reg a.rn; let y := (shifterOperand a.op2 s).value
    Matches (.sub a) 0x0DE00000 0x00400000 ∧ Matches (.rsb a) 0x0DE00000 0x00600000 ∧
    ArithmeticOutcome (exec (.sub a) s) a s (2 ^ 32 + x.toNat - y.toNat) (y.toNat ≤ x.toNat) (x.toInt - y.toInt) ∧
    ArithmeticOutcome (exec (.rsb a) s) a s (2 ^ 32 + y.toNat - x.toNat) (x.toNat ≤ y.toNat) (y.toInt - x.toInt)

/-- SBC and RSC: one more is subtracted when the current C is clear (the spec's decision D19, assumption log 14). -/
def Obligations.SubtractionWithCarryInstructions : Prop :=
  ∀ (a : DpArgs) (s : State),
    let x := s.reg a.rn; let y := (shifterOperand a.op2 s).value; let b := 1 - ofFlag (s.flag .c)
    ArithmeticOutcome (exec (.sbc a) s) a s (2 ^ 32 + x.toNat - y.toNat - b) (y.toNat + b ≤ x.toNat)
      (x.toInt - y.toInt - b) ∧
    ArithmeticOutcome (exec (.rsc a) s) a s (2 ^ 32 + y.toNat - x.toNat - b) (x.toNat + b ≤ y.toNat)
      (y.toInt - x.toInt - b)

/-- CMP and CMN write the flags of SUB and ADD whatever S is, and no register (the spec's decision D18, log 15). -/
def Obligations.CompareInstructions : Prop :=
  ∀ (a : DpArgs) (s : State),
    let x := s.reg a.rn; let y := (shifterOperand a.op2 s).value
    CompareOutcome (exec (.cmp a) s) s (2 ^ 32 + x.toNat - y.toNat) (y.toNat ≤ x.toNat) (x.toInt - y.toInt) ∧
    CompareOutcome (exec (.cmn a) s) s (x.toNat + y.toNat) (2 ^ 32 ≤ x.toNat + y.toNat) (x.toInt + y.toInt)

/-- The adder's overflow is also the source's "both-operands-same-sign, result-different-sign" (47_data_processing.md
section 1, from general knowledge there). -/
def Obligations.OverflowDefinitionsAgree : Prop :=
  ∀ (a b : Word) (c : Bool),
    let r := addWithCarry a b c
    r.overflow = (a.getLsbD 31 == b.getLsbD 31 && r.result.getLsbD 31 != a.getLsbD 31)

/-- The carry chains of two words: ADDS then ADC add 64-bit numbers, SUBS then SBC subtract them, in every operand form
and whatever the S bit of the second is (47_data_processing.md section 3; SBC is the spec's decision D19, assumption
log 14). -/
def Obligations.CarryChainsAreDoubleWordArithmetic : Prop :=
  DoubleWord .add .adc (fun x y => x + y) ∧ DoubleWord .sub .sbc (fun x y => x - y)

/-! ### Multiply -/

/-- MUL and MLA: the product, plus the accumulate register for MLA, modulo 2^32. That N and Z are set with S = 1 is the
spec's decision D22 and that V is kept its C6 (assumption log 13); C is free (assumption log 3). -/
def Obligations.MultiplyInstructions : Prop :=
  ∀ (a : MulArgs) (s : State),
    MultiplyOutcome (exec (.mul a) s) a s ((s.reg a.rm).toNat * (s.reg a.rs).toNat) ∧
    MultiplyOutcome (exec (.mla a) s) a s ((s.reg a.rm).toNat * (s.reg a.rs).toNat + (s.reg a.rn).toNat)

/-! ### Branches -/

/-- B and BL: after the cycle's last 4 the program counter is the branch's address plus 8 plus four times the signed
immediate, modulo 2^32; BL also writes the address of the next instruction to the link register; nothing else changes
but registers 15 and 14. The 8 is the spec's decision D7 (assumption log 2). -/
def Obligations.BranchInstructions : Prop :=
  ∀ (a : BranchArgs) (s : State),
    (∃ t, exec (.b a) s = .next t ∧
      ((t.reg 15).toNat + 4 : Int) % 2 ^ 32 = ((s.reg 15).toNat + 8 + 4 * a.imm24.toInt) % 2 ^ 32 ∧
      Frame s t [15] []) ∧
    ∃ t, exec (.bl a) s = .next t ∧
      ((t.reg 15).toNat + 4 : Int) % 2 ^ 32 = ((s.reg 15).toNat + 8 + 4 * a.imm24.toInt) % 2 ^ 32 ∧
      t.reg 14 = s.reg 15 + 4#32 ∧ Frame s t [14, 15] []

/-! ### Software interrupt, unsupported and unrecognised words -/

/-- SWI: with HALT_IMM it halts, with any other immediate it does nothing. As a word, with bits 27:24 1111: the cycle of
a halting SWI reports HALT, its own address staying in the program counter; with any other immediate, or with a failed
condition, the cycle only advances the program counter by 4 and reports OK. -/
def Obligations.SoftwareInterrupt : Prop :=
  (∀ (a : SwiArgs) (s : State),
    (a.imm24 = s.params.haltImm → ∃ t, exec (.swi a) s = .next t ∧ HaltOf s t) ∧
    (a.imm24 ≠ s.params.haltImm → exec (.swi a) s = .next s)) ∧
  ∀ (s : State) (w : Word), s.halted = false → fetch s = some w → w.extractLsb' 24 4 = 0b1111#4 →
    let passed := conditionPassed (Cond.ofCode (w.extractLsb' 28 4)) s
    let imm24 := w.extractLsb' 0 24
    (passed = true → imm24 = s.params.haltImm →
      ∃ t, HaltOf s t ∧ hostStep .cpuCycle ⟨s, false⟩ = (.report .halt, ⟨t, false⟩)) ∧
    (passed = false ∨ imm24 ≠ s.params.haltImm →
      ∃ t, t.reg 15 = s.reg 15 + 4#32 ∧ Frame s t [15] [] ∧
        hostStep .cpuCycle ⟨s, false⟩ = (.report .ok, ⟨t, false⟩))

/-- The P = 0, W = 1 form halts and changes nothing else, whatever its other fields: as the table's own row, and as
the load/store forms that carry those bits. The cycle of such a word reports HALT; with a failed condition it only
advances the program counter by 4. -/
def Obligations.UnsupportedLoadStoreHalts : Prop :=
  (∀ (a : LsUnsupportedArgs) (s : State), ∃ t, exec (.lsUnsupported a) s = .next t ∧ HaltOf s t) ∧
  (∀ (a : LsArgs) (s : State), a.p = false → a.w = true →
    ∃ t, HaltOf s t ∧ exec (.ldr a) s = .next t ∧ exec (.ldrb a) s = .next t ∧ exec (.str a) s = .next t ∧
      exec (.strb a) s = .next t) ∧
  ∀ (s : State) (w : Word), s.halted = false → fetch s = some w →
    w.extractLsb' 26 2 = 0b01#2 → w.getLsbD 24 = false → w.getLsbD 21 = true →
    (conditionPassed (decodeWord w).cond s = true →
      ∃ t, HaltOf s t ∧ hostStep .cpuCycle ⟨s, false⟩ = (.report .halt, ⟨t, false⟩)) ∧
    (conditionPassed (decodeWord w).cond s = false →
      ∃ t, t.reg 15 = s.reg 15 + 4#32 ∧ Frame s t [15] [] ∧
        hostStep .cpuCycle ⟨s, false⟩ = (.report .ok, ⟨t, false⟩))

/-- A word of no class has no effect, and the step only advances the program counter by 4. -/
def Obligations.UnrecognisedWordsOnlyAdvance : Prop :=
  (∀ (c : Cond) (bits : BitVec 28) (s : State), exec (.unrecognised c bits) s = .next s) ∧
  ∀ (s : State) (w : Word), s.halted = false → fetch s = some w →
    (w.extractLsb' 25 3 = 0b100#3 ∨ w.extractLsb' 25 3 = 0b110#3 ∨ w.extractLsb' 24 4 = 0b1110#4) →
    ∃ t, step s = .next t ∧ t.reg 15 = s.reg 15 + 4#32 ∧ Frame s t [15] [] ∧
      hostStep .cpuCycle ⟨s, false⟩ = (.report .ok, ⟨t, false⟩)

/-! ### Load and store -/

/-- LDR of four bytes inside one region loads them most significant first, at any alignment; the loaded word wins over
a writeback of the same register; nothing else changes but the written-back base (the spec's decisions D10, D23,
assumption logs 8, 11). -/
def Obligations.LoadWord : Prop :=
  ∀ (a : LsArgs) (s n : State) (addr : Word), s.params.wf → resolveAddress a s = .access addr n →
    InRegion s.params addr.toNat 4 →
    ∃ t, exec (.ldr a) s = .next t ∧
      (t.reg a.rd).toNat = (Memory.read s.mem addr.toNat).toNat * 2 ^ 24
        + (Memory.read s.mem (addr.toNat + 1)).toNat * 2 ^ 16 + (Memory.read s.mem (addr.toNat + 2)).toNat * 2 ^ 8
        + (Memory.read s.mem (addr.toNat + 3)).toNat ∧
      (a.p = a.w → a.rn ≠ a.rd → t.reg a.rn = movedBase a s) ∧ Frame s t (a.rd :: basesWritten a) []

/-- LDRB of a mapped byte loads it zero-extended (the spec's decisions D23, D24, assumption logs 11, 17). -/
def Obligations.LoadByte : Prop :=
  ∀ (a : LsArgs) (s n : State) (addr : Word), s.params.wf → resolveAddress a s = .access addr n →
    InRegion s.params addr.toNat 1 →
    ∃ t, exec (.ldrb a) s = .next t ∧ (t.reg a.rd).toNat = (Memory.read s.mem addr.toNat).toNat ∧
      (a.p = a.w → a.rn ≠ a.rd → t.reg a.rn = movedBase a s) ∧ Frame s t (a.rd :: basesWritten a) []

/-- STR to four bytes inside one region stores Rd's old value most significant byte first at the resolved address;
every other byte, the flags and every register but a written-back base are unchanged. -/
def Obligations.StoreWord : Prop :=
  ∀ (a : LsArgs) (s n : State) (addr : Word), s.params.wf → Memory.wf s.mem → resolveAddress a s = .access addr n →
    InRegion s.params addr.toNat 4 →
    ∃ t, exec (.str a) s = .next t ∧
      (∀ k < 4, ∃ b, t.memRead8 (byteAddr addr k) = some b ∧ b.toNat = (s.reg a.rd).toNat / 256 ^ (3 - k) % 256) ∧
      (∀ b : Word, (∀ k < 4, b ≠ byteAddr addr k) → t.memRead8 b = s.memRead8 b) ∧
      (a.p = a.w → t.reg a.rn = movedBase a s) ∧ (∀ q, q ∉ basesWritten a → t.reg q = s.reg q) ∧
      t.cpsr = s.cpsr ∧ t.halted = s.halted ∧ t.params = s.params

/-- STRB to a mapped byte stores the low 8 bits of Rd's old value at the resolved address; every other byte, the flags
and every register but a written-back base are unchanged. -/
def Obligations.StoreByte : Prop :=
  ∀ (a : LsArgs) (s n : State) (addr : Word), s.params.wf → Memory.wf s.mem → resolveAddress a s = .access addr n →
    InRegion s.params addr.toNat 1 →
    ∃ t, exec (.strb a) s = .next t ∧
      (∃ b, t.memRead8 addr = some b ∧ b.toNat = (s.reg a.rd).toNat % 256) ∧
      (∀ b : Word, b ≠ addr → t.memRead8 b = s.memRead8 b) ∧
      (a.p = a.w → t.reg a.rn = movedBase a s) ∧ (∀ q, q ∉ basesWritten a → t.reg q = s.reg q) ∧
      t.cpsr = s.cpsr ∧ t.halted = s.halted ∧ t.params = s.params

/-- A load or store whose bytes do not all lie in one region is Fatal at the resolved address, with nothing committed
(the spec's decisions D11, D17, assumption logs 9, 10). -/
def Obligations.AccessOutsideOneRegionIsFatal : Prop :=
  ∀ (a : LsArgs) (s n : State) (addr : Word), s.params.wf → resolveAddress a s = .access addr n →
    (¬ InRegion s.params addr.toNat 4 →
      exec (.ldr a) s = .fault (.fatal .load addr) ∧ exec (.str a) s = .fault (.fatal .store addr)) ∧
    (¬ InRegion s.params addr.toNat 1 →
      exec (.ldrb a) s = .fault (.fatal .load addr) ∧ exec (.strb a) s = .fault (.fatal .store addr))

/-- A stored word is what the next fetch at its address reads: no fence, no cache (20_memory.md section 3). -/
def Obligations.StoreIsSeenByTheNextFetch : Prop :=
  ∀ (a : LsArgs) (s n t : State) (addr : Word), Memory.wf s.mem → resolveAddress a s = .access addr n →
    exec (.str a) s = .next t → fetch (t.setReg 15 addr) = some (s.reg a.rd)

/-! ### Memory primitives -/

/-- A four-byte access succeeds exactly when its bytes lie in one region, a one-byte access exactly when its byte does
(20_memory.md sections 1, 2; the straddling case is the spec's decision D11, assumption log 9). -/
def Obligations.AccessesSucceedExactlyInsideOneRegion : Prop :=
  ∀ (s : State) (a : Word) (v : Word) (b : Byte), s.params.wf →
    ((s.memRead32 a).isSome = true ↔ InRegion s.params a.toNat 4) ∧
    ((s.memWrite32 a v).isSome = true ↔ InRegion s.params a.toNat 4) ∧
    ((s.memRead8 a).isSome = true ↔ InRegion s.params a.toNat 1) ∧
    ((s.memWrite8 a b).isSome = true ↔ InRegion s.params a.toNat 1)

/-- Memory round trip: a word written at any address inside one region reads back as itself, its bytes read one by one
are its bytes from the most significant on, and no other byte changes (20_memory.md section 2). -/
def Obligations.WordWriteReadsBackBigEndian : Prop :=
  ∀ (s : State) (a v : Word), s.params.wf → Memory.wf s.mem → InRegion s.params a.toNat 4 →
    ∃ t, s.memWrite32 a v = some t ∧ t.memRead32 a = some v ∧
      (∀ k < 4, ∃ b, t.memRead8 (byteAddr a k) = some b ∧ b.toNat = v.toNat / 256 ^ (3 - k) % 256) ∧
      (∀ b : Word, (∀ k < 4, b ≠ byteAddr a k) → t.memRead8 b = s.memRead8 b)

/-- Four byte writes make the word their bytes spell, most significant first (20_memory.md section 2). -/
def Obligations.ByteWritesMakeTheWord : Prop :=
  ∀ (s : State) (a : Word) (b0 b1 b2 b3 : Byte), s.params.wf → Memory.wf s.mem → InRegion s.params a.toNat 4 →
    ∃ t1 t2 t3 t4, s.memWrite8 a b0 = some t1 ∧ t1.memWrite8 (byteAddr a 1) b1 = some t2 ∧
      t2.memWrite8 (byteAddr a 2) b2 = some t3 ∧ t3.memWrite8 (byteAddr a 3) b3 = some t4 ∧
      t4.memRead32 a = some (wordOfBytes b0 b1 b2 b3)

/-! ### The host -/

/-- `load_program` writes the words of a program that fits from the text region's base upward, changes no other byte
and no register, flag or halted flag, and leaves the program counter; a program that does not fit is Fatal with the words
that fit written, and never writes outside the text region (there the spec's decision D26, assumption log 21). -/
def Obligations.LoadProgramPlacesWords : Prop :=
  ∀ (h : Session) (words : List Word), h.core.params.wf → Memory.wf h.core.mem →
    (4 * words.length ≤ h.core.params.textSize →
      ∃ t, hostStep (.loadProgram words) h = (.done, { h with core := t }) ∧
        (∀ i (hi : i < words.length),
          t.memRead32 (BitVec.ofNat 32 (h.core.params.textBase + 4 * i)) = some words[i]) ∧
        (∀ b : Word, ¬ (h.core.params.textBase ≤ b.toNat ∧ b.toNat < h.core.params.textBase + 4 * words.length) →
          t.memRead8 b = h.core.memRead8 b) ∧
        (∀ q, t.reg q = h.core.reg q) ∧ t.cpsr = h.core.cpsr ∧ t.halted = h.core.halted ∧
        t.params = h.core.params) ∧
    (h.core.params.textSize < 4 * words.length →
      ∃ t, hostStep (.loadProgram words) h =
        (.fatal (BitVec.ofNat 32 (h.core.params.textBase + h.core.params.textSize)), ⟨t, true⟩) ∧
        (∀ i (hi : i < words.length), 4 * (i + 1) ≤ h.core.params.textSize →
          t.memRead32 (BitVec.ofNat 32 (h.core.params.textBase + 4 * i)) = some words[i]) ∧
        (∀ b : Word,
          ¬ (h.core.params.textBase ≤ b.toNat ∧ b.toNat < h.core.params.textBase + h.core.params.textSize) →
          t.memRead8 b = h.core.memRead8 b) ∧
        (∀ q, t.reg q = h.core.reg q) ∧ t.cpsr = h.core.cpsr ∧ t.halted = h.core.halted ∧
        t.params = h.core.params)

/-- `set_reg` writes the one register, at once and with no 4 added, on a running and on a halted core alike. -/
def Obligations.SetRegWritesOneRegister : Prop :=
  ∀ (h : Session) (r : RegNum) (v : Word), ∃ t, hostStep (.setReg r v) h = (.done, { h with core := t }) ∧
    t.reg r = v ∧ Frame h.core t [r] []

/-- A cycle that is FATAL changes nothing and leaves the session stuck; a stuck session's cycle reports FATAL and changes
nothing; every host operation but the two resets, whatever it answers, leaves a stuck session stuck; and either reset
ends that (the spec's decision D17, assumption log 10). -/
def Obligations.FatalLeavesTheSessionStuck : Prop :=
  (∀ h : Session, (hostStep .cpuCycle h).1 = .report .fatal →
    (hostStep .cpuCycle h).2.core = h.core ∧ (hostStep .cpuCycle h).2.stuck = true) ∧
  (∀ h : Session, h.stuck = true → hostStep .cpuCycle h = (.report .fatal, h)) ∧
  (∀ (op : HostOp) (h : Session), h.stuck = true → op ≠ .initialise → op ≠ .resetCpu →
    (hostStep op h).2.stuck = true) ∧
  ∀ h : Session, (hostStep .resetCpu h).2.stuck = false ∧ (hostStep .initialise h).2.stuck = false

/-- A word placed for the next step is the word the next step fetches, from every legal state (the model's own
convention, assumption log 18). -/
def Obligations.PlacedWordIsFetchedNext : Prop :=
  ∀ (s : State) (nbits w : Nat), s.params.wf → Memory.wf s.mem → nbits ≤ 32 → w < 2 ^ nbits →
    (s.withFetchWord nbits w).halted = false ∧ fetch (s.withFetchWord nbits w) = some (BitVec.ofNat 32 w) ∧
    decodeTableWord nbits w = some (decodeWord (BitVec.ofNat 32 w))

/-! ### The assembler syntax -/

/-- What an assembler makes of an instruction is well formed, so its word decodes to it (30_encoding.md section 8, from
general knowledge there; assumption log 24). -/
def Obligations.AssembledInstructionsAreWellFormed : Prop :=
  ∀ (address : Word) (x : AsmInstr) (i : Instr), assemble address x = some i → i.wf = true

/-- A constant assembles exactly when it is an 8-bit value rotated right by an even amount, and the operand then has
that value (30_encoding.md section 8, from general knowledge there; assumption log 24). -/
def Obligations.AssembledConstantsHaveTheirValue : Prop :=
  ∀ (v : Word),
    ((assembleOperand2 (.const v)).isSome = true ↔ ∃ (r : Nat) (b : BitVec 8), r < 16 ∧
      ∀ k < 32, v.getLsbD k = b.getLsbD ((k + 2 * r) % 32)) ∧
    ∀ (o : Operand2) (s : State), assembleOperand2 (.const v) = some o → (shifterOperand o s).value = v

/-- A branch assembled for a target within its range goes there: after the cycle's last 4 the program counter is the
target (30_encoding.md section 8; 45_branch.md section 1; the spec's decision D7, assumption logs 2, 24). -/
def Obligations.AssembledBranchReachesItsTarget : Prop :=
  ∀ (s : State) (c : Cond) (target : Word), (target - s.reg 15).toNat % 4 = 0 →
    -2 ^ 25 ≤ (target - s.reg 15 - 8#32).toInt → (target - s.reg 15 - 8#32).toInt < 2 ^ 25 →
    ∃ i t, assemble (s.reg 15) (.b c target) = some i ∧ exec i s = .next t ∧ t.reg 15 + 4#32 = target
end

