-- ==== Sys2Proof/Laws/State.lean ====
section
/-! SUPPORT. One lemma per field per update of `State`, so that no later proof unfolds a record update. -/

namespace Sys2Proof.Machine

variable (s : State) (r q : RegNum) (v : Word) (m : Memory) (f g : Flag) (b : Bool)

/-! ### `setReg` -/

theorem State.reg_setReg : (s.setReg r v).reg q = if q = r then v else s.reg q := by
  simp only [State.reg, State.setReg, Fin.getElem_fin, Vector.getElem_set, Fin.ext_iff, eq_comm]

@[simp] theorem State.reg_setReg_self : (s.setReg r v).reg r = v := by simp [State.reg_setReg]

theorem State.reg_setReg_of_ne (h : q ≠ r) : (s.setReg r v).reg q = s.reg q := by simp [State.reg_setReg, h]

@[simp] theorem State.setReg_cpsr : (s.setReg r v).cpsr = s.cpsr := rfl
@[simp] theorem State.setReg_halted : (s.setReg r v).halted = s.halted := rfl
@[simp] theorem State.setReg_mem : (s.setReg r v).mem = s.mem := rfl
@[simp] theorem State.setReg_params : (s.setReg r v).params = s.params := rfl
@[simp] theorem State.setReg_mulDraws : (s.setReg r v).mulDraws = s.mulDraws := rfl
@[simp] theorem State.setReg_flag : (s.setReg r v).flag f = s.flag f := rfl

/-! ### `setMem` -/

@[simp] theorem State.setMem_reg : (s.setMem m).reg q = s.reg q := rfl
@[simp] theorem State.setMem_pc : (s.setMem m).pc = s.pc := rfl
@[simp] theorem State.setMem_regs : (s.setMem m).regs = s.regs := rfl
@[simp] theorem State.setMem_cpsr : (s.setMem m).cpsr = s.cpsr := rfl
@[simp] theorem State.setMem_halted : (s.setMem m).halted = s.halted := rfl
@[simp] theorem State.setMem_mem : (s.setMem m).mem = m := rfl
@[simp] theorem State.setMem_params : (s.setMem m).params = s.params := rfl
@[simp] theorem State.setMem_mulDraws : (s.setMem m).mulDraws = s.mulDraws := rfl
@[simp] theorem State.setMem_flag : (s.setMem m).flag f = s.flag f := rfl

/-! ### `raiseHalt` -/

@[simp] theorem State.raiseHalt_reg : s.raiseHalt.reg q = s.reg q := rfl
@[simp] theorem State.raiseHalt_regs : s.raiseHalt.regs = s.regs := rfl
@[simp] theorem State.raiseHalt_pc : s.raiseHalt.pc = s.pc := rfl
@[simp] theorem State.raiseHalt_cpsr : s.raiseHalt.cpsr = s.cpsr := rfl
@[simp] theorem State.raiseHalt_halted : s.raiseHalt.halted = true := rfl
@[simp] theorem State.raiseHalt_mem : s.raiseHalt.mem = s.mem := rfl
@[simp] theorem State.raiseHalt_params : s.raiseHalt.params = s.params := rfl
@[simp] theorem State.raiseHalt_mulDraws : s.raiseHalt.mulDraws = s.mulDraws := rfl
@[simp] theorem State.raiseHalt_flag : s.raiseHalt.flag f = s.flag f := rfl

/-! ### `setFlag` -/

@[simp] theorem State.setFlag_reg : (s.setFlag f b).reg q = s.reg q := rfl
@[simp] theorem State.setFlag_regs : (s.setFlag f b).regs = s.regs := rfl
@[simp] theorem State.setFlag_pc : (s.setFlag f b).pc = s.pc := rfl
@[simp] theorem State.setFlag_cpsr : (s.setFlag f b).cpsr = withBit s.cpsr (flagBit f) b := rfl
@[simp] theorem State.setFlag_halted : (s.setFlag f b).halted = s.halted := rfl
@[simp] theorem State.setFlag_mem : (s.setFlag f b).mem = s.mem := rfl
@[simp] theorem State.setFlag_params : (s.setFlag f b).params = s.params := rfl
@[simp] theorem State.setFlag_mulDraws : (s.setFlag f b).mulDraws = s.mulDraws := rfl

/-! ### The flag updates -/

@[simp] theorem State.setNZ_reg : (s.setNZ v).reg q = s.reg q := rfl
@[simp] theorem State.setNZ_halted : (s.setNZ v).halted = s.halted := rfl
@[simp] theorem State.setNZ_mem : (s.setNZ v).mem = s.mem := rfl
@[simp] theorem State.setNZ_params : (s.setNZ v).params = s.params := rfl
@[simp] theorem State.setNZ_mulDraws : (s.setNZ v).mulDraws = s.mulDraws := rfl

variable (sum : Sum)

@[simp] theorem State.setArithFlags_reg : (s.setArithFlags sum).reg q = s.reg q := rfl
@[simp] theorem State.setArithFlags_halted : (s.setArithFlags sum).halted = s.halted := rfl
@[simp] theorem State.setArithFlags_mem : (s.setArithFlags sum).mem = s.mem := rfl
@[simp] theorem State.setArithFlags_params : (s.setArithFlags sum).params = s.params := rfl
@[simp] theorem State.setArithFlags_mulDraws : (s.setArithFlags sum).mulDraws = s.mulDraws := rfl

@[simp] theorem State.setLogicFlags_reg : (s.setLogicFlags v b).reg q = s.reg q := rfl
@[simp] theorem State.setLogicFlags_halted : (s.setLogicFlags v b).halted = s.halted := rfl
@[simp] theorem State.setLogicFlags_mem : (s.setLogicFlags v b).mem = s.mem := rfl
@[simp] theorem State.setLogicFlags_params : (s.setLogicFlags v b).params = s.params := rfl
@[simp] theorem State.setLogicFlags_mulDraws : (s.setLogicFlags v b).mulDraws = s.mulDraws := rfl

@[simp] theorem State.setMulFlags_reg : (s.setMulFlags v).reg q = s.reg q := rfl
@[simp] theorem State.setMulFlags_halted : (s.setMulFlags v).halted = s.halted := rfl
@[simp] theorem State.setMulFlags_mem : (s.setMulFlags v).mem = s.mem := rfl
@[simp] theorem State.setMulFlags_params : (s.setMulFlags v).params = s.params := rfl
@[simp] theorem State.setMulFlags_mulDraws : (s.setMulFlags v).mulDraws = s.mulDraws + 1 := rfl

/-! ### `advancePc` -/

@[simp] theorem State.advancePc_cpsr : s.advancePc.cpsr = s.cpsr := by unfold State.advancePc; split <;> rfl
@[simp] theorem State.advancePc_halted : s.advancePc.halted = s.halted := by unfold State.advancePc; split <;> rfl
@[simp] theorem State.advancePc_mem : s.advancePc.mem = s.mem := by unfold State.advancePc; split <;> rfl
@[simp] theorem State.advancePc_params : s.advancePc.params = s.params := by unfold State.advancePc; split <;> rfl
@[simp] theorem State.advancePc_mulDraws : s.advancePc.mulDraws = s.mulDraws := by
  unfold State.advancePc; split <;> rfl

theorem State.advancePc_reg_of_ne (h : q ≠ Config.pcIndex) : s.advancePc.reg q = s.reg q := by
  unfold State.advancePc; split
  · rfl
  · exact State.reg_setReg_of_ne _ _ _ _ h

theorem State.advancePc_of_running (h : s.halted = false) :
    s.advancePc = s.setReg Config.pcIndex (s.pc + instrBytes) := by simp [State.advancePc, h]

theorem State.advancePc_of_halted (h : s.halted = true) : s.advancePc = s := by simp [State.advancePc, h]

/-- Two states with the same registers, status word, halted flag, memory, parameters and draws are the same. -/
theorem State.ext_of_reg {s t : State} (hr : ∀ q, s.reg q = t.reg q) (hc : s.cpsr = t.cpsr)
    (hh : s.halted = t.halted) (hm : s.mem = t.mem) (hp : s.params = t.params) (hd : s.mulDraws = t.mulDraws) :
    s = t := by
  have : s.regs = t.regs := Vector.ext fun i hi => by simpa [State.reg] using hr ⟨i, hi⟩
  cases s; cases t; simp_all

end Sys2Proof.Machine
end

