-- ==== Sys2Proof/Laws/Memory.lean ====
section
/-! SUPPORT. The laws of memory: read after write, the canonical form, and byte order (20_memory.md R44 to R49). -/

namespace Sys2Proof.Machine

/-! ### Reading -/

theorem Memory.read_of_forall_lt {m : Memory} {a : Nat} (h : ∀ c ∈ m, a < c.1) :
    Memory.read m a = Memory.background := by
  induction m with
  | nil => rfl
  | cons c m ih =>
    have hc := h c (by simp)
    simp only [Memory.read, Nat.ne_of_gt hc, if_false]
    exact ih fun d hd => h d (by simp [hd])

theorem Memory.lt_of_wf_cons {c : Host.Cell} {m : Memory} (h : Memory.wf (c :: m)) : ∀ d ∈ m, c.1 < d.1 :=
  fun _ hd => List.rel_of_pairwise_cons h.1 hd

theorem Memory.wf_tail {c : Host.Cell} {m : Memory} (h : Memory.wf (c :: m)) : Memory.wf m :=
  ⟨h.1.of_cons, fun d hd => h.2 d (by simp [hd])⟩

/-- A byte read after a write of one byte: the written byte at its address, every other byte as before. -/
theorem Memory.read_write {m : Memory} (h : Memory.wf m) (a b : Nat) (v : Byte) :
    Memory.read (Memory.write m a v) b = if b = a then v else Memory.read m b := by
  induction m with
  | nil =>
    by_cases hv : v = Memory.background <;> by_cases hb : b = a <;>
      simp [Memory.write, Memory.read, hv, hb, eq_comm]
    intro h'; exact absurd h'.symm hb
  | cons c m ih =>
    obtain ⟨k, w⟩ := c
    have hlt := Memory.lt_of_wf_cons h
    simp only [Memory.write]
    rcases Nat.lt_trichotomy a k with hk | rfl | hk
    · have hbg : Memory.read ((k, w) :: m) a = Memory.background :=
        Memory.read_of_forall_lt fun d hd => by
          rcases List.mem_cons.1 hd with rfl | hd
          · exact hk
          · exact Nat.lt_trans hk (hlt d hd)
      by_cases hv : v = Memory.background
      · simp only [hk, if_true, hv]
        split
        · next hb => rw [hb, hbg]
        · rfl
      · by_cases hb : b = a
        · simp [hk, hv, hb, Memory.read]
        · simp [hk, hv, hb, Memory.read, Ne.symm hb]
    · have hbg : Memory.read m a = Memory.background := Memory.read_of_forall_lt hlt
      by_cases hv : v = Memory.background
      · by_cases hb : b = a
        · subst hb; simpa [hv] using hbg
        · simp [hv, hb, Memory.read, Ne.symm hb]
      · by_cases hb : b = a
        · simp [hv, hb, Memory.read]
        · simp [hv, hb, Memory.read, Ne.symm hb]
    · have h1 : ¬ a < k := by omega
      have h2 : ¬ a = k := by omega
      simp only [h1, h2, if_false, Memory.read]
      split
      · next hb => rw [if_neg (by omega)]
      · exact ih (Memory.wf_tail h)

/-! ### Writing -/

theorem Memory.mem_write {m : Memory} {a : Nat} {v : Byte} {c : Host.Cell} (hc : c ∈ Memory.write m a v) :
    c ∈ m ∨ (c = (a, v) ∧ v ≠ Memory.background) := by
  induction m with
  | nil =>
    simp only [Memory.write] at hc
    split at hc
    · simp at hc
    · next hv => exact .inr ⟨by simpa using hc, hv⟩
  | cons d m ih =>
    obtain ⟨k, w⟩ := d
    simp only [Memory.write] at hc
    split at hc
    · split at hc
      · exact .inl hc
      · next hv =>
        rcases List.mem_cons.1 hc with rfl | hc
        · exact .inr ⟨rfl, hv⟩
        · exact .inl hc
    · split at hc
      · split at hc
        · exact .inl (List.mem_cons_of_mem _ hc)
        · next hv =>
          rcases List.mem_cons.1 hc with rfl | hc
          · exact .inr ⟨rfl, hv⟩
          · exact .inl (List.mem_cons_of_mem _ hc)
      · rcases List.mem_cons.1 hc with rfl | hc
        · exact .inl (by simp)
        · rcases ih hc with h | h
          · exact .inl (List.mem_cons_of_mem _ h)
          · exact .inr h

/-- A write keeps the canonical form. -/
theorem Memory.write_wf {m : Memory} (h : Memory.wf m) (a : Nat) (v : Byte) : Memory.wf (Memory.write m a v) := by
  refine ⟨?_, fun c hc => ?_⟩
  · induction m with
    | nil => simp only [Memory.write]; split <;> simp
    | cons d m ih =>
      obtain ⟨k, w⟩ := d
      have hlt := Memory.lt_of_wf_cons h
      have ht := Memory.wf_tail h
      simp only [Memory.write]
      split
      · next hk =>
        split
        · exact h.1
        · refine List.pairwise_cons.2 ⟨fun e he => ?_, h.1⟩
          rcases List.mem_cons.1 he with rfl | he
          · exact hk
          · exact Nat.lt_trans hk (hlt e he)
      · split
        · next hk => 
          split
          · exact ht.1
          · exact List.pairwise_cons.2 ⟨fun e he => by subst hk; exact hlt e he, ht.1⟩
        · refine List.pairwise_cons.2 ⟨fun e he => ?_, ih ht⟩
          rcases Memory.mem_write he with he | ⟨rfl, _⟩
          · exact hlt e he
          · simp only; omega
  · rcases Memory.mem_write hc with hc | ⟨rfl, hv⟩
    · exact h.2 c hc
    · exact hv

theorem Memory.writeWord_wf {m : Memory} (h : Memory.wf m) (a : Nat) (v : Word) :
    Memory.wf (Memory.writeWord m a v) :=
  Memory.write_wf (Memory.write_wf (Memory.write_wf (Memory.write_wf h _ _) _ _) _ _) _ _

theorem Memory.mem_writeWord {m : Memory} {a : Nat} {v : Word} {c : Host.Cell}
    (hc : c ∈ Memory.writeWord m a v) : c ∈ m ∨ (a ≤ c.1 ∧ c.1 < a + 4) := by
  have key : ∀ {m : Memory} {k : Nat} {b : Byte}, c ∈ Memory.write m k b → c ∈ m ∨ c.1 = k := fun h =>
    (Memory.mem_write h).imp id fun h => by simp [h.1]
  rcases key hc with hc | h
  · rcases key hc with hc | h
    · rcases key hc with hc | h
      · rcases key hc with hc | h
        · exact .inl hc
        · right; omega
      · right; omega
    · right; omega
  · right; omega

/-- A byte read after a write of a word: byte `k` of the word at `a + k`, every other byte as before. -/
theorem Memory.read_writeWord {m : Memory} (h : Memory.wf m) (a b : Nat) (v : Word) :
    Memory.read (Memory.writeWord m a v) b =
      if a ≤ b ∧ b < a + 4 then byteOfWord v (b - a) else Memory.read m b := by
  have h0 := Memory.write_wf h a (byteOfWord v 0)
  have h1 := Memory.write_wf h0 (a + 1) (byteOfWord v 1)
  have h2 := Memory.write_wf h1 (a + 2) (byteOfWord v 2)
  rw [Memory.writeWord, Memory.read_write h2, Memory.read_write h1, Memory.read_write h0, Memory.read_write h]
  by_cases hb : a ≤ b ∧ b < a + 4
  · rw [if_pos hb]
    obtain ⟨k, rfl⟩ := Nat.exists_eq_add_of_le hb.1
    have hk : k = 0 ∨ k = 1 ∨ k = 2 ∨ k = 3 := by omega
    rcases hk with rfl | rfl | rfl | rfl <;> simp
  · rw [if_neg hb, if_neg (by omega), if_neg (by omega), if_neg (by omega), if_neg (by omega)]

/-- Four bytes of a word make the word again (20_memory.md R45, R46). -/
theorem wordOfBytes_byteOfWord (v : Word) :
    wordOfBytes (byteOfWord v 0) (byteOfWord v 1) (byteOfWord v 2) (byteOfWord v 3) = v := by
  refine BitVec.eq_of_getLsbD_eq fun i hi => ?_
  change BitVec.getLsbD (w := 8 + 8 + 8 + 8) (_ ++ _ ++ _ ++ _) i = _
  simp only [byteOfWord, BitVec.getLsbD_append, BitVec.getLsbD_extractLsb']
  have close {k j : Nat} (hk : k < 8) (hj : j = i) : (decide (k < 8) && v.getLsbD j) = v.getLsbD i := by simp [hk, hj]
  split
  · exact close ‹_› (by omega)
  · split
    · exact close ‹_› (by omega)
    · split
      · exact close ‹_› (by omega)
      · exact close (by omega) (by omega)

/-- A word read after a write of that word is the word (20_memory.md R45, R46). -/
theorem Memory.readWord_writeWord {m : Memory} (h : Memory.wf m) (a : Nat) (v : Word) :
    Memory.readWord (Memory.writeWord m a v) a = v := by
  simp only [Memory.readWord, Memory.read_writeWord h]
  rw [if_pos (by omega), if_pos (by omega), if_pos (by omega), if_pos (by omega)]
  simpa using wordOfBytes_byteOfWord v

end Sys2Proof.Machine
end

