-- ==== Sys2Proof/Laws/Access.lean ====
section
/-! SUPPORT. When an access succeeds, and everything a memory operation and the address resolver can do. -/

namespace Sys2Proof.Machine

/-- Everything the region lookup can answer (20_memory.md R40, R41). -/
theorem regionOf_cases (p : Params) (a : Nat) :
    (regionOf p a = some .text ∧ p.textBase ≤ a ∧ a < p.textBase + p.textSize) ∨
    (regionOf p a = some .data ∧ ¬ (p.textBase ≤ a ∧ a < p.textBase + p.textSize) ∧
      p.dataBase ≤ a ∧ a < p.dataBase + p.dataSize) ∨
    (regionOf p a = none ∧ ¬ (p.textBase ≤ a ∧ a < p.textBase + p.textSize) ∧
      ¬ (p.dataBase ≤ a ∧ a < p.dataBase + p.dataSize)) := by
  by_cases ht : p.textBase ≤ a ∧ a < p.textBase + p.textSize
  · exact .inl ⟨if_pos ht, ht⟩
  · by_cases hd : p.dataBase ≤ a ∧ a < p.dataBase + p.dataSize
    · exact .inr (.inl ⟨(if_neg ht).trans (if_pos hd), ht, hd⟩)
    · exact .inr (.inr ⟨(if_neg ht).trans (if_neg hd), ht, hd⟩)

/-- An access is inside the region of its first byte. -/
theorem accessible_of_some {p : Params} {a n : Nat} {r : Region} (h : regionOf p a = some r) :
    accessible p a n = true ↔ a + n ≤ regionEnd p r := by
  simp [accessible, h]

/-- No access starts at an unmapped address (20_memory.md R42). -/
theorem accessible_of_none {p : Params} {a n : Nat} (h : regionOf p a = none) : accessible p a n = false := by
  simp [accessible, h]

theorem regionEnd_text (p : Params) : regionEnd p .text = p.textBase + p.textSize := rfl

theorem regionEnd_data (p : Params) : regionEnd p .data = p.dataBase + p.dataSize := rfl

/-- An access of at least one byte succeeds exactly when its bytes lie in one region (20_memory.md R42, R47). -/
theorem accessible_iff {p : Params} (hp : p.wf) {a n : Nat} (hn : 0 < n) :
    accessible p a n = true ↔
      (p.textBase ≤ a ∧ a + n ≤ p.textBase + p.textSize) ∨ (p.dataBase ≤ a ∧ a + n ≤ p.dataBase + p.dataSize) := by
  obtain ⟨_, _, _, _, _, _, _, _, _⟩ := hp
  rcases regionOf_cases p a with ⟨e, h⟩ | ⟨e, h⟩ | ⟨e, h⟩
  · rw [accessible_of_some e, regionEnd_text]; omega
  · rw [accessible_of_some e, regionEnd_data]; omega
  · rw [accessible_of_none e]; simp only [Bool.false_eq_true, false_iff]; omega

/-- The bytes of an access that succeeds are in a region. -/
theorem regionOf_of_accessible {p : Params} {a n k : Nat} (h : accessible p a n = true) (hk : k < n) :
    regionOf p (a + k) ≠ none := by
  rcases regionOf_cases p (a + k) with ⟨e, _⟩ | ⟨e, _⟩ | ⟨_, h1, h2⟩
  · simp [e]
  · simp [e]
  · rcases regionOf_cases p a with ⟨e, h'⟩ | ⟨e, h'⟩ | ⟨e, h'⟩
    · rw [accessible_of_some e, regionEnd_text] at h; omega
    · rw [accessible_of_some e, regionEnd_data] at h; omega
    · rw [accessible_of_none e] at h; cases h

/-- The top of an access that succeeds is below 2^32. -/
theorem lt_of_accessible {p : Params} (hp : p.wf) {a n : Nat} (hn : 0 < n) (h : accessible p a n = true) :
    a + n ≤ 2 ^ 32 := by
  have := (accessible_iff hp hn).1 h
  obtain ⟨_, _, _, _, _, _, _, _, _⟩ := hp
  omega

theorem State.memRead8_eq_some {s : State} {a : Word} {b : Byte} :
    s.memRead8 a = some b ↔ accessible s.params a.toNat 1 = true ∧ Memory.read s.mem a.toNat = b := by
  simp [State.memRead8]

theorem State.memRead32_eq_some {s : State} {a v : Word} :
    s.memRead32 a = some v ↔ accessible s.params a.toNat 4 = true ∧ Memory.readWord s.mem a.toNat = v := by
  simp [State.memRead32]

theorem State.memWrite8_eq_some {s t : State} {a : Word} {b : Byte} :
    s.memWrite8 a b = some t ↔
      accessible s.params a.toNat 1 = true ∧ s.setMem (Memory.write s.mem a.toNat b) = t := by
  simp [State.memWrite8]

theorem State.memWrite32_eq_some {s t : State} {a v : Word} :
    s.memWrite32 a v = some t ↔
      accessible s.params a.toNat 4 = true ∧ s.setMem (Memory.writeWord s.mem a.toNat v) = t := by
  simp [State.memWrite32]

/-- Reading a byte sees the parameters and the memory only. -/
theorem State.memRead8_congr {s t : State} (hp : t.params = s.params) (hm : t.mem = s.mem) (a : Word) :
    t.memRead8 a = s.memRead8 a := by
  simp only [State.memRead8, hp, hm]

/-! ### The address resolver -/

/-- Everything the resolver can answer: the unsupported form, or the address of the index mode with the base written
back in the two modes that do (42_address_resolver.md R121). -/
theorem resolveAddress_cases (a : LsArgs) (s : State) :
    (a.p = false ∧ a.w = true ∧ resolveAddress a s = .unsupported) ∨
    (a.p = true ∧ a.w = false ∧ resolveAddress a s = .access (movedBase a s) s) ∨
    (a.p = a.w ∧ resolveAddress a s =
      .access (if a.p then movedBase a s else s.reg a.rn) (s.setReg a.rn (movedBase a s))) := by
  unfold resolveAddress
  cases a.p <;> cases a.w <;> simp

/-- The resolver's next state differs from the current one in the base register at most. -/
theorem resolveAddress_access {a : LsArgs} {s n : State} {addr : Word} (h : resolveAddress a s = .access addr n) :
    (a.p = true ∧ a.w = false ∧ n = s) ∨ (a.p = a.w ∧ n = s.setReg a.rn (movedBase a s)) := by
  rcases resolveAddress_cases a s with ⟨_, _, e⟩ | ⟨hp, hw, e⟩ | ⟨hpw, e⟩ <;> rw [e] at h
  · cases h
  · cases h; exact .inl ⟨hp, hw, rfl⟩
  · cases h; exact .inr ⟨hpw, rfl⟩

/-- A load or store in a form the core supports makes its access. -/
theorem loadStore_of_access {a : LsArgs} {s n : State} {addr : Word} (h : resolveAddress a s = .access addr n)
    (f : Word → State → Outcome) : loadStore a s f = f addr n := by
  simp [loadStore, h]

/-- A load or store in the unsupported form halts. -/
theorem loadStore_of_unsupported {a : LsArgs} {s : State} (hp : a.p = false) (hw : a.w = true)
    (f : Word → State → Outcome) : loadStore a s f = .next s.raiseHalt := by
  simp [loadStore, resolveAddress, hp, hw]

/-- A load or store is Fatal in its access only, at the address it resolves to. -/
theorem loadStore_fault {a : LsArgs} {s : State} {r : Fault} {f : Word → State → Outcome}
    (h : loadStore a s f = .fault r) : ∃ addr n, resolveAddress a s = .access addr n ∧ f addr n = .fault r := by
  unfold loadStore at h
  split at h
  · cases h
  · exact ⟨_, _, ‹_›, h⟩

end Sys2Proof.Machine
end

