-- ==== Sys2Proof/Laws/Encoding.lean ====
section
/-! SUPPORT. The fields of an encoded word, format by format, the class patterns as bits, and the codes of conditions,
shift operators and registers (30_encoding.md R61 to R73). -/

namespace Sys2Proof

/-! ### Codes -/

theorem Cond.ofCode_code (c : Cond) : Cond.ofCode c.code = c := by cases c <;> decide

theorem Cond.code_ofCode (c : BitVec 4) : (Cond.ofCode c).code = c := by revert c; decide

theorem ShiftType.ofCode_code (t : ShiftType) : ShiftType.ofCode t.code = t := by cases t <;> decide

theorem ShiftType.code_ofCode (c : BitVec 2) : (ShiftType.ofCode c).code = c := by revert c; decide

theorem regOfCode_regCode (r : RegNum) : regOfCode (regCode r) = r := by revert r; decide

theorem regCode_regOfCode (c : BitVec 4) : regCode (regOfCode c) = c := by revert c; decide

/-! ### Class patterns as bits -/

theorem eq_1111_iff : ∀ x : BitVec 4, x = 0b1111#4 ↔
    x.getLsbD 3 = true ∧ x.getLsbD 2 = true ∧ x.getLsbD 1 = true ∧ x.getLsbD 0 = true := by decide

theorem eq_1001_iff : ∀ x : BitVec 4, x = 0b1001#4 ↔
    x.getLsbD 3 = true ∧ x.getLsbD 2 = false ∧ x.getLsbD 1 = false ∧ x.getLsbD 0 = true := by decide

theorem eq_000000_iff : ∀ x : BitVec 6, x = 0b000000#6 ↔
    x.getLsbD 5 = false ∧ x.getLsbD 4 = false ∧ x.getLsbD 3 = false ∧ x.getLsbD 2 = false ∧ x.getLsbD 1 = false ∧
      x.getLsbD 0 = false := by decide

theorem eq_101_iff : ∀ x : BitVec 3, x = 0b101#3 ↔
    x.getLsbD 2 = true ∧ x.getLsbD 1 = false ∧ x.getLsbD 0 = true := by decide

theorem eq_100_iff : ∀ x : BitVec 3, x = 0b100#3 ↔
    x.getLsbD 2 = true ∧ x.getLsbD 1 = false ∧ x.getLsbD 0 = false := by decide

theorem eq_110_iff : ∀ x : BitVec 3, x = 0b110#3 ↔
    x.getLsbD 2 = true ∧ x.getLsbD 1 = true ∧ x.getLsbD 0 = false := by decide

theorem eq_1110_iff : ∀ x : BitVec 4, x = 0b1110#4 ↔
    x.getLsbD 3 = true ∧ x.getLsbD 2 = true ∧ x.getLsbD 1 = true ∧ x.getLsbD 0 = false := by decide

theorem eq_01_iff : ∀ x : BitVec 2, x = 0b01#2 ↔ x.getLsbD 1 = false ∧ x.getLsbD 0 = true := by decide

theorem eq_00_iff : ∀ x : BitVec 2, x = 0b00#2 ↔ x.getLsbD 1 = false ∧ x.getLsbD 0 = false := by decide

section
variable (w : Word)

/-- Bits 27:24 are 1111 (30_encoding.md R63, order 1). -/
theorem swiPattern_iff : w.extractLsb' 24 4 = 0b1111#4 ↔
    w.getLsbD 27 = true ∧ w.getLsbD 26 = true ∧ w.getLsbD 25 = true ∧ w.getLsbD 24 = true := by
  simp [eq_1111_iff]

/-- Bits 27:22 are 000000 (30_encoding.md R63, order 2). -/
theorem mulUpperPattern_iff : w.extractLsb' 22 6 = 0b000000#6 ↔
    w.getLsbD 27 = false ∧ w.getLsbD 26 = false ∧ w.getLsbD 25 = false ∧ w.getLsbD 24 = false ∧
      w.getLsbD 23 = false ∧ w.getLsbD 22 = false := by
  rw [eq_000000_iff]; simp

/-- Bits 7:4 are 1001 (30_encoding.md R63, order 2). -/
theorem mulLowerPattern_iff : w.extractLsb' 4 4 = 0b1001#4 ↔
    w.getLsbD 7 = true ∧ w.getLsbD 6 = false ∧ w.getLsbD 5 = false ∧ w.getLsbD 4 = true := by
  simp [eq_1001_iff]

/-- Bits 27:25 are 101 (30_encoding.md R63, order 3). -/
theorem branchPattern_iff : w.extractLsb' 25 3 = 0b101#3 ↔
    w.getLsbD 27 = true ∧ w.getLsbD 26 = false ∧ w.getLsbD 25 = true := by
  simp [eq_101_iff]

/-- Bits 27:26 are 01 (30_encoding.md R63, order 4). -/
theorem loadStorePattern_iff : w.extractLsb' 26 2 = 0b01#2 ↔ w.getLsbD 27 = false ∧ w.getLsbD 26 = true := by
  simp [eq_01_iff]

/-- Bits 27:26 are 00 (30_encoding.md R63, order 5). -/
theorem dataProcessingPattern_iff : w.extractLsb' 26 2 = 0b00#2 ↔
    w.getLsbD 27 = false ∧ w.getLsbD 26 = false := by
  rw [eq_00_iff]; simp

end

/-! ### Fields of encoded words

Each format's fields, read off its concatenation. A register field read back is the register. -/

theorem regAt_of_extract {w : Word} {lo : Nat} {r : RegNum} (h : w.extractLsb' lo 4 = regCode r) : regAt w lo = r := by
  rw [regAt, h, regOfCode_regCode]

theorem condOf_of_extract {w : Word} {c : Cond} (h : w.extractLsb' 28 4 = c.code) : condOf w = c := by
  rw [condOf, h, Cond.ofCode_code]

theorem shiftTypeOf_of_extract {w : Word} {t : ShiftType} (h : w.extractLsb' 5 2 = t.code) : shiftTypeOf w = t := by
  rw [shiftTypeOf, h, ShiftType.ofCode_code]

theorem getLsbD_bit_zero (b : Bool) : (bit b).getLsbD 0 = b := by cases b <;> rfl

theorem getLsbD_of_extract_one {w : Word} {lo : Nat} {b : Bool} (h : w.extractLsb' lo 1 = bit b) :
    w.getLsbD lo = b := by
  have : (w.extractLsb' lo 1).getLsbD 0 = b := by rw [h, getLsbD_bit_zero]
  simpa using this

theorem extract_of_low {n m : Nat} {w : Word} {x : BitVec n} (h : w.extractLsb' 0 n = x) (start : Nat)
    (hs : start + m ≤ n) : w.extractLsb' start m = x.extractLsb' start m := by
  subst h
  ext i hi
  simp [show start + i < n by omega]

theorem getLsbD_of_low {n : Nat} {w : Word} {x : BitVec n} (h : w.extractLsb' 0 n = x) (i : Nat) (hi : i < n) :
    w.getLsbD i = x.getLsbD i := by
  subst h; simp [hi]

/-- The data-processing format (30_encoding.md R69). -/
theorem encodeDp_fields (op : BitVec 4) (a : DpArgs) :
    (encodeDp op a).extractLsb' 28 4 = a.cond.code ∧ (encodeDp op a).extractLsb' 26 2 = 0b00#2 ∧
    (encodeDp op a).extractLsb' 25 1 = bit a.op2.iBit ∧ (encodeDp op a).extractLsb' 21 4 = op ∧
    (encodeDp op a).extractLsb' 20 1 = bit a.s ∧ (encodeDp op a).extractLsb' 16 4 = regCode a.rn ∧
    (encodeDp op a).extractLsb' 12 4 = regCode a.rd ∧ (encodeDp op a).extractLsb' 0 12 = a.op2.bits := by
  have e (start len : Nat) : (encodeDp op a).extractLsb' start len =
      BitVec.extractLsb' (n := 4 + 2 + 1 + 4 + 1 + 4 + 4 + 12) start len
        (a.cond.code ++ 0b00#2 ++ bit a.op2.iBit ++ op ++ bit a.s ++ regCode a.rn ++ regCode a.rd ++ a.op2.bits) := rfl
  simp only [e, BitVec.extractLsb'_append_eq_of_le, BitVec.extractLsb'_append_eq_of_add_le, -Nat.reduceAdd,
    Nat.reduceLeDiff, Nat.reduceSub, BitVec.extractLsb'_eq_self, and_self]

/-- The load/store format (30_encoding.md R68). -/
theorem encodeLoadStore_fields (c : Cond) (p u b w l : Bool) (rn rd : RegNum) (o : Offset) :
    let x := encodeLoadStore c p u b w l rn rd o
    x.extractLsb' 28 4 = c.code ∧ x.extractLsb' 26 2 = 0b01#2 ∧ x.extractLsb' 25 1 = bit o.iBit ∧
    x.extractLsb' 24 1 = bit p ∧ x.extractLsb' 23 1 = bit u ∧ x.extractLsb' 22 1 = bit b ∧
    x.extractLsb' 21 1 = bit w ∧ x.extractLsb' 20 1 = bit l ∧ x.extractLsb' 16 4 = regCode rn ∧
    x.extractLsb' 12 4 = regCode rd ∧ x.extractLsb' 0 12 = o.bits := by
  have e (start len : Nat) : (encodeLoadStore c p u b w l rn rd o).extractLsb' start len =
      BitVec.extractLsb' (n := 4 + 2 + 1 + 1 + 1 + 1 + 1 + 1 + 4 + 4 + 12) start len
        (c.code ++ 0b01#2 ++ bit o.iBit ++ bit p ++ bit u ++ bit b ++ bit w ++ bit l ++ regCode rn ++ regCode rd
          ++ o.bits) := rfl
  simp only [e, BitVec.extractLsb'_append_eq_of_le, BitVec.extractLsb'_append_eq_of_add_le, -Nat.reduceAdd,
    Nat.reduceLeDiff, Nat.reduceSub, BitVec.extractLsb'_eq_self, and_self]

/-- The multiply format (30_encoding.md R66). -/
theorem encodeMul_fields (acc : Bool) (a : MulArgs) :
    let x := encodeMul acc a
    x.extractLsb' 28 4 = a.cond.code ∧ x.extractLsb' 22 6 = 0b000000#6 ∧ x.extractLsb' 21 1 = bit acc ∧
    x.extractLsb' 20 1 = bit a.s ∧ x.extractLsb' 16 4 = regCode a.rd ∧ x.extractLsb' 12 4 = regCode a.rn ∧
    x.extractLsb' 8 4 = regCode a.rs ∧ x.extractLsb' 4 4 = 0b1001#4 ∧ x.extractLsb' 0 4 = regCode a.rm := by
  have e (start len : Nat) : (encodeMul acc a).extractLsb' start len =
      BitVec.extractLsb' (n := 4 + 6 + 1 + 1 + 4 + 4 + 4 + 4 + 4) start len
        (a.cond.code ++ 0b000000#6 ++ bit acc ++ bit a.s ++ regCode a.rd ++ regCode a.rn ++ regCode a.rs
          ++ 0b1001#4 ++ regCode a.rm) := rfl
  simp only [e, BitVec.extractLsb'_append_eq_of_le, BitVec.extractLsb'_append_eq_of_add_le, -Nat.reduceAdd,
    Nat.reduceLeDiff, Nat.reduceSub, BitVec.extractLsb'_eq_self, and_self]

/-- The branch format (30_encoding.md R67). -/
theorem encodeBranch_fields (link : Bool) (a : BranchArgs) :
    let x := encodeBranch link a
    x.extractLsb' 28 4 = a.cond.code ∧ x.extractLsb' 25 3 = 0b101#3 ∧ x.extractLsb' 24 1 = bit link ∧
    x.extractLsb' 0 24 = a.imm24 := by
  have e (start len : Nat) : (encodeBranch link a).extractLsb' start len =
      BitVec.extractLsb' (n := 4 + 3 + 1 + 24) start len (a.cond.code ++ 0b101#3 ++ bit link ++ a.imm24) := rfl
  simp only [e, BitVec.extractLsb'_append_eq_of_le, BitVec.extractLsb'_append_eq_of_add_le, -Nat.reduceAdd,
    Nat.reduceLeDiff, Nat.reduceSub, BitVec.extractLsb'_eq_self, and_self]

/-- The software interrupt format (30_encoding.md R65). -/
theorem encodeSwi_fields (a : SwiArgs) :
    let x := encode (.swi a)
    x.extractLsb' 28 4 = a.cond.code ∧ x.extractLsb' 24 4 = 0b1111#4 ∧ x.extractLsb' 0 24 = a.imm24 := by
  have e (start len : Nat) : (encode (.swi a)).extractLsb' start len =
      BitVec.extractLsb' (n := 4 + 4 + 24) start len (a.cond.code ++ 0b1111#4 ++ a.imm24) := rfl
  simp only [e, BitVec.extractLsb'_append_eq_of_le, BitVec.extractLsb'_append_eq_of_add_le, -Nat.reduceAdd,
    Nat.reduceLeDiff, Nat.reduceSub, BitVec.extractLsb'_eq_self, and_self]

/-- An unrecognised word (30_encoding.md R77). -/
theorem encodeUnrecognised_fields (c : Cond) (bits : BitVec 28) :
    let x := encode (.unrecognised c bits)
    x.extractLsb' 28 4 = c.code ∧ x.extractLsb' 0 28 = bits := by
  have e (start len : Nat) : (encode (.unrecognised c bits)).extractLsb' start len =
      BitVec.extractLsb' (n := 4 + 28) start len (c.code ++ bits) := rfl
  simp only [e, BitVec.extractLsb'_append_eq_of_le, BitVec.extractLsb'_append_eq_of_add_le, -Nat.reduceAdd,
    Nat.reduceLeDiff, Nat.reduceSub, BitVec.extractLsb'_eq_self, and_self]

/-! ### Operand fields -/

/-- Operand 2 read back from a word that holds its bits (30_encoding.md R70). -/
theorem decodeOperand2_of_bits {w : Word} {o : Operand2} (hi : w.getLsbD 25 = o.iBit)
    (hl : w.extractLsb' 0 12 = o.bits) : decodeOperand2 w = o := by
  cases o with
  | imm rot imm8 =>
    have e (start len : Nat) : (Operand2.imm rot imm8).bits.extractLsb' start len =
        BitVec.extractLsb' (n := 4 + 8) start len (rot ++ imm8) := rfl
    have h1 := extract_of_low (m := 4) hl 8 (by decide)
    have h2 := extract_of_low (m := 8) hl 0 (by decide)
    simp only [e, BitVec.extractLsb'_append_eq_of_le, BitVec.extractLsb'_append_eq_of_add_le, -Nat.reduceAdd,
      Nat.reduceLeDiff, Nat.reduceSub, BitVec.extractLsb'_eq_self] at h1 h2
    simp only [Operand2.iBit] at hi
    simp only [decodeOperand2, hi, if_true, h1, h2]
  | shiftImm shamt type rm =>
    have e (start len : Nat) : (Operand2.shiftImm shamt type rm).bits.extractLsb' start len =
        BitVec.extractLsb' (n := 5 + 2 + 1 + 4) start len (shamt ++ type.code ++ 0b0#1 ++ regCode rm) := rfl
    have h1 := extract_of_low (m := 5) hl 7 (by decide)
    have h2 := extract_of_low (m := 2) hl 5 (by decide)
    have h3 := extract_of_low (m := 1) hl 4 (by decide)
    have h4 := extract_of_low (m := 4) hl 0 (by decide)
    simp only [e, BitVec.extractLsb'_append_eq_of_le, BitVec.extractLsb'_append_eq_of_add_le, -Nat.reduceAdd,
      Nat.reduceLeDiff, Nat.reduceSub, BitVec.extractLsb'_eq_self] at h1 h2 h3 h4
    simp only [Operand2.iBit] at hi
    simp only [decodeOperand2, hi, getLsbD_of_extract_one (b := false) h3, h1, shiftTypeOf_of_extract h2,
      regAt_of_extract h4, Bool.false_eq_true, if_false]
  | shiftReg rs bit7 type rm =>
    have e (start len : Nat) : (Operand2.shiftReg rs bit7 type rm).bits.extractLsb' start len =
        BitVec.extractLsb' (n := 4 + 1 + 2 + 1 + 4) start len
          (regCode rs ++ bit bit7 ++ type.code ++ 0b1#1 ++ regCode rm) := rfl
    have h1 := extract_of_low (m := 4) hl 8 (by decide)
    have h2 := extract_of_low (m := 1) hl 7 (by decide)
    have h3 := extract_of_low (m := 2) hl 5 (by decide)
    have h4 := extract_of_low (m := 1) hl 4 (by decide)
    have h5 := extract_of_low (m := 4) hl 0 (by decide)
    simp only [e, BitVec.extractLsb'_append_eq_of_le, BitVec.extractLsb'_append_eq_of_add_le, -Nat.reduceAdd,
      Nat.reduceLeDiff, Nat.reduceSub, BitVec.extractLsb'_eq_self] at h1 h2 h3 h4 h5
    simp only [Operand2.iBit] at hi
    simp only [decodeOperand2, hi, getLsbD_of_extract_one (b := true) h4, getLsbD_of_extract_one h2,
      shiftTypeOf_of_extract h3, regAt_of_extract h1, regAt_of_extract h5, Bool.false_eq_true, if_false, if_true]

/-- The offset read back from a word that holds its bits (30_encoding.md R71). -/
theorem decodeOffset_of_bits {w : Word} {o : Offset} (hi : w.getLsbD 25 = o.iBit)
    (hl : w.extractLsb' 0 12 = o.bits) : decodeOffset w = o := by
  cases o with
  | imm offset12 =>
    simp only [Offset.iBit] at hi
    simp only [decodeOffset, hi, Bool.false_eq_true, if_false, hl, Offset.bits]
  | scaled shamt type bit4 rm =>
    have e (start len : Nat) : (Offset.scaled shamt type bit4 rm).bits.extractLsb' start len =
        BitVec.extractLsb' (n := 5 + 2 + 1 + 4) start len (shamt ++ type.code ++ bit bit4 ++ regCode rm) := rfl
    have h1 := extract_of_low (m := 5) hl 7 (by decide)
    have h2 := extract_of_low (m := 2) hl 5 (by decide)
    have h3 := extract_of_low (m := 1) hl 4 (by decide)
    have h4 := extract_of_low (m := 4) hl 0 (by decide)
    simp only [e, BitVec.extractLsb'_append_eq_of_le, BitVec.extractLsb'_append_eq_of_add_le, -Nat.reduceAdd,
      Nat.reduceLeDiff, Nat.reduceSub, BitVec.extractLsb'_eq_self] at h1 h2 h3 h4
    simp only [Offset.iBit] at hi
    simp only [decodeOffset, hi, if_true, getLsbD_of_extract_one h3, h1, shiftTypeOf_of_extract h2,
      regAt_of_extract h4]

/-! ### Whole formats read back -/

theorem decodeDpArgs_encodeDp (op : BitVec 4) (a : DpArgs) : decodeDpArgs (encodeDp op a) = a := by
  obtain ⟨hc, -, hi, -, hs, hn, hd, hl⟩ := encodeDp_fields op a
  simp only [decodeDpArgs, condOf_of_extract hc, getLsbD_of_extract_one hs, regAt_of_extract hn,
    regAt_of_extract hd, decodeOperand2_of_bits (getLsbD_of_extract_one hi) hl]

theorem decodeLsArgs_encodeLoadStore (a : LsArgs) (b l : Bool) :
    decodeLsArgs (encodeLoadStore a.cond a.p a.u b a.w l a.rn a.rd a.offset) = a := by
  obtain ⟨hc, -, hi, hp, hu, -, hw, -, hn, hd, hl⟩ := encodeLoadStore_fields a.cond a.p a.u b a.w l a.rn a.rd a.offset
  simp only [decodeLsArgs, condOf_of_extract hc, getLsbD_of_extract_one hp, getLsbD_of_extract_one hu,
    getLsbD_of_extract_one hw, regAt_of_extract hn, regAt_of_extract hd,
    decodeOffset_of_bits (getLsbD_of_extract_one hi) hl]

theorem decodeLsUnsupportedArgs_encodeLoadStore (a : LsUnsupportedArgs) (p w : Bool) :
    decodeLsUnsupportedArgs (encodeLoadStore a.cond p a.u a.b w a.l a.rn a.rd a.offset) = a := by
  obtain ⟨hc, -, hi, -, hu, hb, -, hl, hn, hd, ho⟩ :=
    encodeLoadStore_fields a.cond p a.u a.b w a.l a.rn a.rd a.offset
  simp only [decodeLsUnsupportedArgs, condOf_of_extract hc, getLsbD_of_extract_one hu, getLsbD_of_extract_one hb,
    getLsbD_of_extract_one hl, regAt_of_extract hn, regAt_of_extract hd,
    decodeOffset_of_bits (getLsbD_of_extract_one hi) ho]

theorem decodeMulArgs_encodeMul (acc : Bool) (a : MulArgs) : decodeMulArgs (encodeMul acc a) = a := by
  obtain ⟨hc, -, -, hs, hd, hn, hrs, -, hm⟩ := encodeMul_fields acc a
  simp only [decodeMulArgs, condOf_of_extract hc, getLsbD_of_extract_one hs, regAt_of_extract hd,
    regAt_of_extract hn, regAt_of_extract hrs, regAt_of_extract hm]

theorem decodeBranchArgs_encodeBranch (link : Bool) (a : BranchArgs) :
    decodeBranchArgs (encodeBranch link a) = a := by
  obtain ⟨hc, -, -, hi⟩ := encodeBranch_fields link a
  simp only [decodeBranchArgs, condOf_of_extract hc, hi]

/-! ### The class of an encoded word -/

/-- A data-processing word decodes to the instruction of its opcode, unless it is a multiply word
(30_encoding.md R63). -/
theorem decodeWord_encodeDp {op : BitVec 4} {a : DpArgs}
    (h : op.extractLsb' 1 3 = 0#3 → a.op2.looksLikeMultiply = false) :
    decodeWord (encodeDp op a) = dpInstr op a := by
  have hd := decodeDpArgs_encodeDp op a
  obtain ⟨-, hcl, hi, hop, -, -, -, hl⟩ := encodeDp_fields op a
  have hb := (dataProcessingPattern_iff _).1 hcl
  have h1 : ¬ (encodeDp op a).extractLsb' 24 4 = 0b1111#4 := by
    rw [swiPattern_iff]; rintro ⟨h27, -⟩; exact absurd (h27.symm.trans hb.1) (by decide)
  have h3 : ¬ (encodeDp op a).extractLsb' 25 3 = 0b101#3 := by
    rw [branchPattern_iff]; rintro ⟨h27, -⟩; exact absurd (h27.symm.trans hb.1) (by decide)
  have h4 : ¬ (encodeDp op a).extractLsb' 26 2 = 0b01#2 := by rw [hcl]; decide
  have h2 : ¬ ((encodeDp op a).extractLsb' 22 6 = 0b000000#6 ∧ (encodeDp op a).extractLsb' 4 4 = 0b1001#4) := by
    rintro ⟨hu, hlo⟩
    have hu' := (mulUpperPattern_iff _).1 hu
    have hop0 : op.extractLsb' 1 3 = 0#3 := by
      obtain ⟨-, -, -, h24, h23, h22⟩ := hu'
      rw [← hop]; ext k hk
      have : k = 0 ∨ k = 1 ∨ k = 2 := by omega
      rcases this with rfl | rfl | rfl <;> simpa using ‹_›
    have hm := h hop0
    have hlo := (mulLowerPattern_iff _).1 hlo
    have hi := getLsbD_of_extract_one hi
    have ho := decodeOperand2_of_bits hi hl
    rw [← ho] at hm
    have ht : shiftTypeOf (encodeDp op a) = .lsl := by
      have : (encodeDp op a).extractLsb' 5 2 = 0b00#2 := by rw [eq_00_iff]; simpa using ⟨hlo.2.1, hlo.2.2.1⟩
      rw [shiftTypeOf, this]; rfl
    simp only [decodeOperand2, hu'.2.2.1, hlo, ht, Operand2.looksLikeMultiply, Bool.false_eq_true, if_false,
      if_true, reduceCtorEq] at hm
  simp only [decodeWord, if_neg h1, if_neg h2, if_neg h3, if_neg h4, if_pos hcl, hop, hd]

/-- A load/store word decodes in its class, by its bits P, W, L and B (30_encoding.md R68, R73). -/
theorem decodeWord_encodeLoadStore (c : Cond) (p u b w l : Bool) (rn rd : RegNum) (o : Offset) :
    let x := encodeLoadStore c p u b w l rn rd o
    decodeWord x = decodeLoadStore x ∧ x.getLsbD 24 = p ∧ x.getLsbD 21 = w ∧ x.getLsbD 20 = l ∧ x.getLsbD 22 = b := by
  intro x
  obtain ⟨-, hcl, -, hp, -, hb, hw, hl, -⟩ := encodeLoadStore_fields c p u b w l rn rd o
  have hbits := (loadStorePattern_iff _).1 hcl
  have h1 : ¬ x.extractLsb' 24 4 = 0b1111#4 := by
    rw [swiPattern_iff]; rintro ⟨h27, -⟩; exact absurd (h27.symm.trans hbits.1) (by decide)
  have h2 : ¬ (x.extractLsb' 22 6 = 0b000000#6 ∧ x.extractLsb' 4 4 = 0b1001#4) := by
    rw [mulUpperPattern_iff]; rintro ⟨⟨-, h26, -⟩, -⟩; exact absurd (h26.symm.trans hbits.2) (by decide)
  have h3 : ¬ x.extractLsb' 25 3 = 0b101#3 := by
    rw [branchPattern_iff]; rintro ⟨h27, -⟩; exact absurd (h27.symm.trans hbits.1) (by decide)
  exact ⟨by simp only [decodeWord, if_neg h1, if_neg h2, if_neg h3]; exact if_pos hcl,
    getLsbD_of_extract_one hp, getLsbD_of_extract_one hw, getLsbD_of_extract_one hl, getLsbD_of_extract_one hb⟩

/-- A multiply word decodes by its bit 21 (30_encoding.md R66). -/
theorem decodeWord_encodeMul (acc : Bool) (a : MulArgs) :
    decodeWord (encodeMul acc a) = if acc then .mla a else .mul a := by
  have hd := decodeMulArgs_encodeMul acc a
  obtain ⟨-, hu, ha, -, -, -, -, hl, -⟩ := encodeMul_fields acc a
  have hb := (mulUpperPattern_iff _).1 hu
  have h1 : ¬ (encodeMul acc a).extractLsb' 24 4 = 0b1111#4 := by
    rw [swiPattern_iff]; rintro ⟨h27, -⟩; exact absurd (h27.symm.trans hb.1) (by decide)
  simp only [decodeWord, if_neg h1, hu, hl, and_self, if_true, getLsbD_of_extract_one ha, hd]

/-- A branch word decodes by its bit 24 (30_encoding.md R67). -/
theorem decodeWord_encodeBranch (link : Bool) (a : BranchArgs) :
    decodeWord (encodeBranch link a) = if link then .bl a else .b a := by
  have hd := decodeBranchArgs_encodeBranch link a
  obtain ⟨-, hcl, hl, -⟩ := encodeBranch_fields link a
  have hb := (branchPattern_iff _).1 hcl
  have h1 : ¬ (encodeBranch link a).extractLsb' 24 4 = 0b1111#4 := by
    rw [swiPattern_iff]; rintro ⟨-, h26, -⟩; exact absurd (h26.symm.trans hb.2.1) (by decide)
  have h2 : ¬ ((encodeBranch link a).extractLsb' 22 6 = 0b000000#6 ∧
      (encodeBranch link a).extractLsb' 4 4 = 0b1001#4) := by
    rw [mulUpperPattern_iff]; rintro ⟨⟨h27, -⟩, -⟩; exact absurd (h27.symm.trans hb.1) (by decide)
  simp only [decodeWord, if_neg h1, if_neg h2, hcl, if_true, getLsbD_of_extract_one hl, hd]

/-- A word of no class matches no class pattern (30_encoding.md R63, R64). -/
theorem outside_patterns {x : Word}
    (h : x.extractLsb' 25 3 = 0b100#3 ∨ x.extractLsb' 25 3 = 0b110#3 ∨ x.extractLsb' 24 4 = 0b1110#4) :
    ¬ x.extractLsb' 24 4 = 0b1111#4 ∧ ¬ (x.extractLsb' 22 6 = 0b000000#6 ∧ x.extractLsb' 4 4 = 0b1001#4) ∧
    ¬ x.extractLsb' 25 3 = 0b101#3 ∧ ¬ x.extractLsb' 26 2 = 0b01#2 ∧ ¬ x.extractLsb' 26 2 = 0b00#2 := by
  rw [swiPattern_iff, mulUpperPattern_iff, branchPattern_iff, loadStorePattern_iff, dataProcessingPattern_iff]
  rw [eq_100_iff, eq_110_iff, eq_1110_iff] at h
  simp only [BitVec.getLsbD_extractLsb', Nat.reduceAdd, Nat.reduceLT, decide_true, Bool.true_and] at h
  generalize x.getLsbD 27 = b27 at *
  generalize x.getLsbD 26 = b26 at *
  generalize x.getLsbD 25 = b25 at *
  generalize x.getLsbD 24 = b24 at *
  cases b27 <;> cases b26 <;> cases b25 <;> cases b24 <;> simp_all

/-! ### Words rebuilt from their fields -/

/-- Two words with the same field agree in each of its bits. -/
theorem getLsbD_eq_of_extract {w v : Word} {lo n : Nat} (h : w.extractLsb' lo n = v.extractLsb' lo n) (i : Nat)
    (h1 : lo ≤ i) (h2 : i < lo + n) : w.getLsbD i = v.getLsbD i := by
  have := congrArg (·.getLsbD (i - lo)) h
  simpa [show i - lo < n by omega, show lo + (i - lo) = i by omega] using this

theorem bit_getLsbD (w : Word) (i : Nat) : bit (w.getLsbD i) = w.extractLsb' i 1 := by
  ext k hk
  have : k = 0 := by omega
  subst this
  simp [bit]

theorem regCode_regAt (w : Word) (lo : Nat) : regCode (regAt w lo) = w.extractLsb' lo 4 := regCode_regOfCode _

theorem code_condOf (w : Word) : (condOf w).code = w.extractLsb' 28 4 := Cond.code_ofCode _

theorem code_shiftTypeOf (w : Word) : (shiftTypeOf w).code = w.extractLsb' 5 2 := ShiftType.code_ofCode _

end Sys2Proof
end

