-- ==== Sys2Proof/Laws/Flags.lean ====
section
/-! SUPPORT. What the flag writes and the adder can do. -/

namespace Sys2Proof.Machine

theorem getLsbD_withBit (w : Word) (i k : Nat) (b : Bool) (hi : i < 32) :
    (withBit w i b).getLsbD k = if k = i then b else w.getLsbD k := by
  by_cases hk : k < 32
  · by_cases hki : k = i
    · subst hki; cases b <;> simp [withBit, hk]
    · have : ¬ k < i → ¬ k - i = 0 := by omega
      by_cases hl : k < i <;> cases b <;> simp_all [withBit]
  · have hki : k ≠ i := by omega
    simp [hki, BitVec.getLsbD_of_ge _ k (by omega : 32 ≤ k)]

theorem flagBit_lt (f : Flag) : flagBit f < 32 := by cases f <;> decide

theorem flagBit_ge (f : Flag) : 28 ≤ flagBit f := by cases f <;> decide

theorem flagBit_inj {f g : Flag} : flagBit f = flagBit g ↔ f = g := by cases f <;> cases g <;> decide

/-- A flag write changes the one flag it names (10_state.md R30). -/
@[simp] theorem State.flag_setFlag (s : State) (f g : Flag) (b : Bool) :
    (s.setFlag f b).flag g = if g = f then b else s.flag g := by
  simp only [State.flag, State.setFlag_cpsr, getLsbD_withBit _ _ _ _ (flagBit_lt f), flagBit_inj]

/-- A flag write leaves the unused bits of the status word alone (10_state.md R29). -/
theorem withBit_low (w : Word) (f : Flag) (b : Bool) :
    (withBit w (flagBit f) b).extractLsb' 0 28 = w.extractLsb' 0 28 := by
  ext k hk
  have := flagBit_ge f
  simp [getLsbD_withBit _ _ _ _ (flagBit_lt f), show k ≠ flagBit f by omega]

@[simp] theorem State.setFlag_low (s : State) (f : Flag) (b : Bool) :
    (s.setFlag f b).cpsr.extractLsb' 0 28 = s.cpsr.extractLsb' 0 28 := withBit_low _ _ _

/-- A status word is its four flags and its unused bits. -/
theorem cpsr_ext {s t : State} (hf : ∀ f, s.flag f = t.flag f)
    (hl : s.cpsr.extractLsb' 0 28 = t.cpsr.extractLsb' 0 28) : s.cpsr = t.cpsr := by
  ext k hk
  rcases Nat.lt_or_ge k 28 with h | h
  · have := congrArg (·.getLsbD k) hl
    simpa [h, BitVec.getLsbD_eq_getElem, hk] using this
  · have h4 : k = 28 ∨ k = 29 ∨ k = 30 ∨ k = 31 := by omega
    rcases h4 with rfl | rfl | rfl | rfl
    · simpa [State.flag, flagBit] using hf .v
    · simpa [State.flag, flagBit] using hf .c
    · simpa [State.flag, flagBit] using hf .z
    · simpa [State.flag, flagBit] using hf .n

section
variable (s : State) (r : Word) (sum : Sum) (b : Bool)

theorem State.setNZ_flag (g : Flag) :
    (s.setNZ r).flag g = match g with | .n => r.getLsbD 31 | .z => (r == 0#32) | g => s.flag g := by
  cases g <;> simp [State.setNZ]

@[simp] theorem State.setNZ_low : (s.setNZ r).cpsr.extractLsb' 0 28 = s.cpsr.extractLsb' 0 28 := by
  simp only [State.setNZ, State.setFlag_low]

theorem State.setArithFlags_flag (g : Flag) :
    (s.setArithFlags sum).flag g =
      match g with
      | .n => sum.result.getLsbD 31 | .z => (sum.result == 0#32) | .c => sum.carry | .v => sum.overflow := by
  cases g <;> simp [State.setArithFlags, State.setNZ_flag]

@[simp] theorem State.setArithFlags_low :
    (s.setArithFlags sum).cpsr.extractLsb' 0 28 = s.cpsr.extractLsb' 0 28 := by
  simp only [State.setArithFlags, State.setFlag_low, State.setNZ_low]

theorem State.setLogicFlags_flag (g : Flag) :
    (s.setLogicFlags r b).flag g =
      match g with
      | .n => r.getLsbD 31 | .z => (r == 0#32) | .c => b | .v => s.flag .v := by
  cases g <;> simp [State.setLogicFlags, State.setNZ_flag]

@[simp] theorem State.setLogicFlags_low :
    (s.setLogicFlags r b).cpsr.extractLsb' 0 28 = s.cpsr.extractLsb' 0 28 := by
  simp only [State.setLogicFlags, State.setFlag_low, State.setNZ_low]

theorem State.setMulFlags_cpsr :
    (s.setMulFlags r).cpsr = ((s.setNZ r).setFlag .c (Config.mulC s.mulDraws)).cpsr := rfl

/-- N, Z and V after a flag-setting multiply; nothing is said of C, a free value (44_multiply.md R147). -/
theorem State.setMulFlags_flag (g : Flag) (hg : g ≠ .c) :
    (s.setMulFlags r).flag g =
      match g with
      | .n => r.getLsbD 31 | .z => (r == 0#32) | g => s.flag g := by
  have : (s.setMulFlags r).flag g = ((s.setNZ r).setFlag .c (Config.mulC s.mulDraws)).flag g := rfl
  cases g <;> first | exact absurd rfl hg | simp_all [State.setNZ_flag]

@[simp] theorem State.setMulFlags_low :
    (s.setMulFlags r).cpsr.extractLsb' 0 28 = s.cpsr.extractLsb' 0 28 := by
  rw [State.setMulFlags_cpsr, State.setFlag_low, State.setNZ_low]

end

/-! ### The adder (47_data_processing.md R166) -/

theorem addWithCarry_result (a b : Word) (c : Bool) :
    (addWithCarry a b c).result = a + b + BitVec.ofNat 32 c.toNat := by
  apply BitVec.eq_of_toNat_eq
  simp [addWithCarry, BitVec.toNat_add]

/-- `a + NOT b + 1 = a - b` modulo 2^32. -/
theorem addWithCarry_not_true_result (a b : Word) : (addWithCarry a (~~~b) true).result = a - b := by
  rw [addWithCarry_result]
  apply BitVec.eq_of_toNat_eq
  simp only [BitVec.toNat_add, BitVec.toNat_not, BitVec.toNat_sub, BitVec.toNat_ofNat, Bool.toNat_true]
  omega

/-- The carry of a subtraction is NOT borrow. -/
theorem addWithCarry_not_true_carry (a b : Word) :
    (addWithCarry a (~~~b) true).carry = decide (b.toNat ≤ a.toNat) := by
  simp only [addWithCarry, BitVec.toNat_not, Bool.toNat_true, decide_eq_decide]
  omega

end Sys2Proof.Machine
end

