-- ==== Sys2Proof/Laws/Exec.lean ====
section
/-! SUPPORT. Everything the shared writes of the executor, the loads and the stores can do, said once. -/

namespace Sys2Proof.Machine

variable (s : State) (r : Word) (sum : Sum) (c : Bool)

/-! ### The shared writes -/

/-- The logical write: Rd takes the result (47_data_processing.md R169). -/
theorem logicalWrite_reg (a : DpArgs) (q : RegNum) :
    (logicalWrite a r c s).reg q = if q = a.rd then r else s.reg q := by
  unfold logicalWrite; cases a.s <;> simp [State.reg_setReg]

/-- The logical write: with S = 1 the flags are those of `setLogicFlags`, with S = 0 none changes. -/
theorem logicalWrite_flag (a : DpArgs) (g : Flag) :
    (logicalWrite a r c s).flag g = if a.s then (s.setLogicFlags r c).flag g else s.flag g := by
  unfold logicalWrite; cases a.s <;> cases g <;> simp [State.setLogicFlags_flag]

/-- The logical write changes no unused status bit and no field but the registers and the status word. -/
theorem logicalWrite_frame (a : DpArgs) :
    (logicalWrite a r c s).cpsr.extractLsb' 0 28 = s.cpsr.extractLsb' 0 28 ∧
    (logicalWrite a r c s).halted = s.halted ∧ (logicalWrite a r c s).mem = s.mem ∧
    (logicalWrite a r c s).params = s.params ∧ (logicalWrite a r c s).mulDraws = s.mulDraws := by
  unfold logicalWrite; cases a.s <;> simp

/-- The arithmetic write: Rd takes the result (47_data_processing.md R167). -/
theorem arithmeticWrite_reg (a : DpArgs) (q : RegNum) :
    (arithmeticWrite a sum s).reg q = if q = a.rd then sum.result else s.reg q := by
  unfold arithmeticWrite; cases a.s <;> simp [State.reg_setReg]

/-- The arithmetic write: with S = 1 the flags are those of `setArithFlags`, with S = 0 none changes. -/
theorem arithmeticWrite_flag (a : DpArgs) (g : Flag) :
    (arithmeticWrite a sum s).flag g = if a.s then (s.setArithFlags sum).flag g else s.flag g := by
  unfold arithmeticWrite; cases a.s <;> cases g <;> simp [State.setArithFlags_flag]

/-- The arithmetic write changes no unused status bit and no field but the registers and the status word. -/
theorem arithmeticWrite_frame (a : DpArgs) :
    (arithmeticWrite a sum s).cpsr.extractLsb' 0 28 = s.cpsr.extractLsb' 0 28 ∧
    (arithmeticWrite a sum s).halted = s.halted ∧ (arithmeticWrite a sum s).mem = s.mem ∧
    (arithmeticWrite a sum s).params = s.params ∧ (arithmeticWrite a sum s).mulDraws = s.mulDraws := by
  unfold arithmeticWrite; cases a.s <;> simp

/-- The multiply write: Rd takes the result (44_multiply.md R147). -/
theorem multiplyWrite_reg (a : MulArgs) (q : RegNum) :
    (multiplyWrite a r s).reg q = if q = a.rd then r else s.reg q := by
  unfold multiplyWrite; cases a.s <;> simp [State.reg_setReg]

/-- The multiply write: with S = 1 the flags are those of `setMulFlags`, of whose C nothing is known. -/
theorem multiplyWrite_flag (a : MulArgs) (g : Flag) (hg : g ≠ .c) :
    (multiplyWrite a r s).flag g = if a.s then (s.setMulFlags r).flag g else s.flag g := by
  unfold multiplyWrite
  cases a.s
  · simp
  · simp only [if_true, State.setMulFlags_flag _ _ g hg, State.setReg_flag]

theorem multiplyWrite_of_not_s (a : MulArgs) (h : a.s = false) : multiplyWrite a r s = s.setReg a.rd r := by
  simp [multiplyWrite, h]

/-- The multiply write changes no unused status bit and no field but the registers, the status word and, with S = 1,
the number of draws. -/
theorem multiplyWrite_frame (a : MulArgs) :
    (multiplyWrite a r s).cpsr.extractLsb' 0 28 = s.cpsr.extractLsb' 0 28 ∧
    (multiplyWrite a r s).halted = s.halted ∧ (multiplyWrite a r s).mem = s.mem ∧
    (multiplyWrite a r s).params = s.params ∧
    (multiplyWrite a r s).mulDraws = if a.s then s.mulDraws + 1 else s.mulDraws := by
  unfold multiplyWrite; cases a.s <;> simp

/-! ### Loads and stores -/

section
variable {a : LsArgs} {t : State}

/-- Everything LDR can do when it answers a next state: the halt of the unsupported form, or the loaded word. -/
theorem execLdr_next {s : State} (h : execLdr a s = .next t) :
    (a.p = false ∧ a.w = true ∧ t = s.raiseHalt) ∨
    ∃ addr n v, resolveAddress a s = .access addr n ∧ s.memRead32 addr = some v ∧ t = n.setReg a.rd v := by
  rcases hr : resolveAddress a s with _ | ⟨addr, n⟩
  · rcases resolveAddress_cases a s with ⟨hp, hw, _⟩ | ⟨_, _, e⟩ | ⟨_, e⟩
    · rw [execLdr, loadStore_of_unsupported hp hw] at h; cases h; exact .inl ⟨hp, hw, rfl⟩
    · rw [e] at hr; cases hr
    · rw [e] at hr; cases hr
  · rw [execLdr, loadStore_of_access hr] at h
    cases hm : s.memRead32 addr <;> rw [hm] at h <;> cases h
    exact .inr ⟨addr, n, _, rfl, hm, rfl⟩

/-- Everything LDRB can do when it answers a next state. -/
theorem execLdrb_next {s : State} (h : execLdrb a s = .next t) :
    (a.p = false ∧ a.w = true ∧ t = s.raiseHalt) ∨
    ∃ addr n b, resolveAddress a s = .access addr n ∧ s.memRead8 addr = some b ∧
      t = n.setReg a.rd (b.zeroExtend 32) := by
  rcases hr : resolveAddress a s with _ | ⟨addr, n⟩
  · rcases resolveAddress_cases a s with ⟨hp, hw, _⟩ | ⟨_, _, e⟩ | ⟨_, e⟩
    · rw [execLdrb, loadStore_of_unsupported hp hw] at h; cases h; exact .inl ⟨hp, hw, rfl⟩
    · rw [e] at hr; cases hr
    · rw [e] at hr; cases hr
  · rw [execLdrb, loadStore_of_access hr] at h
    cases hm : s.memRead8 addr <;> rw [hm] at h <;> cases h
    exact .inr ⟨addr, n, _, rfl, hm, rfl⟩

/-- Everything STR can do when it answers a next state. -/
theorem execStr_next {s : State} (h : execStr a s = .next t) :
    (a.p = false ∧ a.w = true ∧ t = s.raiseHalt) ∨
    ∃ addr n, resolveAddress a s = .access addr n ∧ accessible s.params addr.toNat 4 = true ∧
      t = n.setMem (Memory.writeWord s.mem addr.toNat (s.reg a.rd)) := by
  rcases hr : resolveAddress a s with _ | ⟨addr, n⟩
  · rcases resolveAddress_cases a s with ⟨hp, hw, _⟩ | ⟨_, _, e⟩ | ⟨_, e⟩
    · rw [execStr, loadStore_of_unsupported hp hw] at h; cases h; exact .inl ⟨hp, hw, rfl⟩
    · rw [e] at hr; cases hr
    · rw [e] at hr; cases hr
  · rw [execStr, loadStore_of_access hr] at h
    cases hm : n.memWrite32 addr (s.reg a.rd) <;> rw [hm] at h <;> cases h
    obtain ⟨ha, rfl⟩ := State.memWrite32_eq_some.1 hm
    rcases resolveAddress_access hr with ⟨_, _, rfl⟩ | ⟨_, rfl⟩ <;> exact .inr ⟨addr, _, rfl, ha, rfl⟩

/-- Everything STRB can do when it answers a next state. -/
theorem execStrb_next {s : State} (h : execStrb a s = .next t) :
    (a.p = false ∧ a.w = true ∧ t = s.raiseHalt) ∨
    ∃ addr n, resolveAddress a s = .access addr n ∧ accessible s.params addr.toNat 1 = true ∧
      t = n.setMem (Memory.write s.mem addr.toNat ((s.reg a.rd).extractLsb' 0 8)) := by
  rcases hr : resolveAddress a s with _ | ⟨addr, n⟩
  · rcases resolveAddress_cases a s with ⟨hp, hw, _⟩ | ⟨_, _, e⟩ | ⟨_, e⟩
    · rw [execStrb, loadStore_of_unsupported hp hw] at h; cases h; exact .inl ⟨hp, hw, rfl⟩
    · rw [e] at hr; cases hr
    · rw [e] at hr; cases hr
  · rw [execStrb, loadStore_of_access hr] at h
    cases hm : n.memWrite8 addr ((s.reg a.rd).extractLsb' 0 8) <;> rw [hm] at h <;> cases h
    obtain ⟨ha, rfl⟩ := State.memWrite8_eq_some.1 hm
    rcases resolveAddress_access hr with ⟨_, _, rfl⟩ | ⟨_, rfl⟩ <;> exact .inr ⟨addr, _, rfl, ha, rfl⟩

/-- What the resolver's next state keeps. -/
theorem resolveAddress_keeps {s n : State} {addr : Word} (h : resolveAddress a s = .access addr n) :
    n.cpsr = s.cpsr ∧ n.halted = s.halted ∧ n.mem = s.mem ∧ n.params = s.params ∧ n.mulDraws = s.mulDraws ∧
    ∀ q, q ≠ a.rn → n.reg q = s.reg q := by
  rcases resolveAddress_access h with ⟨_, _, rfl⟩ | ⟨_, rfl⟩
  · exact ⟨rfl, rfl, rfl, rfl, rfl, fun _ _ => rfl⟩
  · exact ⟨rfl, rfl, rfl, rfl, rfl, fun _ hq => State.reg_setReg_of_ne _ _ _ _ hq⟩

/-- When LDR is Fatal: the address it resolves to cannot be loaded from. -/
theorem execLdr_fault {s : State} {r : Fault} (h : execLdr a s = .fault r) :
    ∃ addr n, resolveAddress a s = .access addr n ∧ r = .fatal .load addr ∧ accessible s.params addr.toNat 4 = false := by
  rw [execLdr] at h
  obtain ⟨addr, n, hr, h⟩ := loadStore_fault h
  cases hm : s.memRead32 addr <;> rw [hm] at h <;> cases h
  exact ⟨addr, n, hr, rfl, by simpa [State.memRead32] using hm⟩

/-- When LDRB is Fatal: the address it resolves to cannot be loaded from. -/
theorem execLdrb_fault {s : State} {r : Fault} (h : execLdrb a s = .fault r) :
    ∃ addr n, resolveAddress a s = .access addr n ∧ r = .fatal .load addr ∧ accessible s.params addr.toNat 1 = false := by
  rw [execLdrb] at h
  obtain ⟨addr, n, hr, h⟩ := loadStore_fault h
  cases hm : s.memRead8 addr <;> rw [hm] at h <;> cases h
  exact ⟨addr, n, hr, rfl, by simpa [State.memRead8] using hm⟩

/-- When STR is Fatal: the address it resolves to cannot be stored to. -/
theorem execStr_fault {s : State} {r : Fault} (h : execStr a s = .fault r) :
    ∃ addr n, resolveAddress a s = .access addr n ∧ r = .fatal .store addr ∧ accessible s.params addr.toNat 4 = false := by
  rw [execStr] at h
  obtain ⟨addr, n, hr, h⟩ := loadStore_fault h
  cases hm : n.memWrite32 addr (s.reg a.rd) <;> rw [hm] at h <;> cases h
  exact ⟨addr, n, hr, rfl, by simpa [State.memWrite32, (resolveAddress_keeps hr).2.2.2.1] using hm⟩

/-- When STRB is Fatal: the address it resolves to cannot be stored to. -/
theorem execStrb_fault {s : State} {r : Fault} (h : execStrb a s = .fault r) :
    ∃ addr n, resolveAddress a s = .access addr n ∧ r = .fatal .store addr ∧ accessible s.params addr.toNat 1 = false := by
  rw [execStrb] at h
  obtain ⟨addr, n, hr, h⟩ := loadStore_fault h
  cases hm : n.memWrite8 addr ((s.reg a.rd).extractLsb' 0 8) <;> rw [hm] at h <;> cases h
  exact ⟨addr, n, hr, rfl, by simpa [State.memWrite8, (resolveAddress_keeps hr).2.2.2.1] using hm⟩

end

/-! ### Stored memory -/

/-- Memory that lies in the regions and is canonical stays so under a store of a word inside a region. -/
theorem writeWord_mapped {p : Params} {m : Memory} {a : Nat} (v : Word) (hm : ∀ d ∈ m, regionOf p d.1 ≠ none)
    (ha : accessible p a 4 = true) : ∀ d ∈ Memory.writeWord m a v, regionOf p d.1 ≠ none := fun d hd => by
  rcases Memory.mem_writeWord hd with h | ⟨h1, h2⟩
  · exact hm d h
  · have := regionOf_of_accessible (k := d.1 - a) ha (by omega)
    rwa [show a + (d.1 - a) = d.1 by omega] at this

/-- The same under a store of a byte. -/
theorem write_mapped {p : Params} {m : Memory} {a : Nat} (v : Byte) (hm : ∀ d ∈ m, regionOf p d.1 ≠ none)
    (ha : accessible p a 1 = true) : ∀ d ∈ Memory.write m a v, regionOf p d.1 ≠ none := fun d hd => by
  rcases Memory.mem_write hd with h | ⟨rfl, _⟩
  · exact hm d h
  · exact regionOf_of_accessible (k := 0) ha (by omega)

end Sys2Proof.Machine
end

