-- ==== Sys2Proof/Laws/Host.lean ====
section
/-! SUPPORT. What loading a program can do. -/

namespace Sys2Proof.Machine

/-- Loading a program changes the memory alone, whether it fits or not (50_host_interface.md R218). -/
theorem loadWords_keeps (ws : List Word) (i : Nat) (s : State) :
    (loadWords ws i s).1 = s.setMem (loadWords ws i s).1.mem := by
  induction ws generalizing i s with
  | nil => rfl
  | cons w ws ih =>
    unfold loadWords
    split
    · rw [ih]; rfl
    · rfl

/-- Loading a program keeps the canonical form of the memory. -/
theorem loadWords_wf (ws : List Word) (i : Nat) {s : State} (hm : Memory.wf s.mem) :
    Memory.wf (loadWords ws i s).1.mem := by
  induction ws generalizing i s with
  | nil => exact hm
  | cons w ws ih =>
    unfold loadWords
    split
    · exact ih _ (Memory.writeWord_wf hm _ _)
    · exact hm

/-- Loading a program writes no byte outside the text region, and none below its first word. -/
theorem read_loadWords (ws : List Word) (i : Nat) {s : State} (hm : Memory.wf s.mem) (b : Nat)
    (hb : b < s.params.textBase + 4 * i ∨ s.params.textBase + s.params.textSize ≤ b) :
    Memory.read (loadWords ws i s).1.mem b = Memory.read s.mem b := by
  induction ws generalizing i s with
  | nil => rfl
  | cons w ws ih =>
    unfold loadWords
    split
    · rw [ih _ (Memory.writeWord_wf hm _ _) (by simp only [State.setMem_params]; omega), State.setMem_mem,
        Memory.read_writeWord hm, if_neg (by omega)]
    · rfl

end Sys2Proof.Machine
end

