-- ==== Sys2Proof/Laws/PerInstr.lean ====
section
/-! SUPPORT. Statements for all instructions, one lemma per constructor. -/

namespace Sys2Proof.Laws

/-- The condition field of an encoded instruction, bits 31:28, is the code of its condition (30_encoding.md R61). -/
def EncodedCond.Statement (i : Instr) : Prop := (encode i).extractLsb' 28 4 = i.cond.code

namespace EncodedCond

theorem swi (a : SwiArgs) : Statement (.swi a) := (encodeSwi_fields a).1
theorem mul (a : MulArgs) : Statement (.mul a) := (encodeMul_fields false a).1
theorem mla (a : MulArgs) : Statement (.mla a) := (encodeMul_fields true a).1
theorem b (a : BranchArgs) : Statement (.b a) := (encodeBranch_fields false a).1
theorem bl (a : BranchArgs) : Statement (.bl a) := (encodeBranch_fields true a).1
theorem lsUnsupported (a : LsUnsupportedArgs) : Statement (.lsUnsupported a) :=
  (encodeLoadStore_fields a.cond false a.u a.b true a.l a.rn a.rd a.offset).1
theorem ldr (a : LsArgs) : Statement (.ldr a) :=
  (encodeLoadStore_fields a.cond a.p a.u false a.w true a.rn a.rd a.offset).1
theorem ldrb (a : LsArgs) : Statement (.ldrb a) :=
  (encodeLoadStore_fields a.cond a.p a.u true a.w true a.rn a.rd a.offset).1
theorem str (a : LsArgs) : Statement (.str a) :=
  (encodeLoadStore_fields a.cond a.p a.u false a.w false a.rn a.rd a.offset).1
theorem strb (a : LsArgs) : Statement (.strb a) :=
  (encodeLoadStore_fields a.cond a.p a.u true a.w false a.rn a.rd a.offset).1
theorem and (a : DpArgs) : Statement (.and a) := (encodeDp_fields 0b0000#4 a).1
theorem eor (a : DpArgs) : Statement (.eor a) := (encodeDp_fields 0b0001#4 a).1
theorem sub (a : DpArgs) : Statement (.sub a) := (encodeDp_fields 0b0010#4 a).1
theorem rsb (a : DpArgs) : Statement (.rsb a) := (encodeDp_fields 0b0011#4 a).1
theorem add (a : DpArgs) : Statement (.add a) := (encodeDp_fields 0b0100#4 a).1
theorem adc (a : DpArgs) : Statement (.adc a) := (encodeDp_fields 0b0101#4 a).1
theorem sbc (a : DpArgs) : Statement (.sbc a) := (encodeDp_fields 0b0110#4 a).1
theorem rsc (a : DpArgs) : Statement (.rsc a) := (encodeDp_fields 0b0111#4 a).1
theorem tst (a : DpArgs) : Statement (.tst a) := (encodeDp_fields 0b1000#4 a).1
theorem teq (a : DpArgs) : Statement (.teq a) := (encodeDp_fields 0b1001#4 a).1
theorem cmp (a : DpArgs) : Statement (.cmp a) := (encodeDp_fields 0b1010#4 a).1
theorem cmn (a : DpArgs) : Statement (.cmn a) := (encodeDp_fields 0b1011#4 a).1
theorem orr (a : DpArgs) : Statement (.orr a) := (encodeDp_fields 0b1100#4 a).1
theorem mov (a : DpArgs) : Statement (.mov a) := (encodeDp_fields 0b1101#4 a).1
theorem bic (a : DpArgs) : Statement (.bic a) := (encodeDp_fields 0b1110#4 a).1
theorem mvn (a : DpArgs) : Statement (.mvn a) := (encodeDp_fields 0b1111#4 a).1
theorem unrecognised (c : Cond) (bits : BitVec 28) : Statement (.unrecognised c bits) :=
  (encodeUnrecognised_fields c bits).1

end EncodedCond

end Sys2Proof.Laws
end

