-- ==== Sys2Proof/Laws/Step.lean ====
section
/-! SUPPORT. Everything a step can do, said once (48_cycle_engine.md R200). -/

namespace Sys2Proof.Machine

variable {s t : State} {w : Word}

/-- A halted core steps to itself (R201). -/
theorem step_of_halted (h : s.halted = true) : step s = .next s := by simp [step, cycle, h]

/-- A cycle whose fetch fails (R202). -/
theorem step_of_no_fetch (h : s.halted = false) (hf : fetch s = none) :
    step s = .fault (.fatal .fetch s.pc) := by simp [step, cycle, h, hf]

/-- A cycle whose condition fails (R205). -/
theorem step_of_failed (h : s.halted = false) (hf : fetch s = some w)
    (hc : conditionPassed (decodeWord w).cond s = false) : step s = .next s.advancePc := by
  simp [step, cycle, gate, commit, h, hf, hc]

/-- A cycle whose condition passes: the executor's outcome, committed (R206, R207, R210). -/
theorem step_of_passed (h : s.halted = false) (hf : fetch s = some w)
    (hc : conditionPassed (decodeWord w).cond s = true) : step s = commit (exec (decodeWord w) s) := by
  simp [step, cycle, gate, h, hf, hc]

/-- Everything a step can do when it answers a next state. -/
theorem step_cases (h : step s = .next t) :
    (s.halted = true ∧ t = s) ∨
    (s.halted = false ∧ ∃ w, fetch s = some w ∧
      ((conditionPassed (decodeWord w).cond s = false ∧ t = s.advancePc) ∨
       (conditionPassed (decodeWord w).cond s = true ∧ ∃ u, exec (decodeWord w) s = .next u ∧ t = u.advancePc))) := by
  rcases hh : s.halted with _ | _
  · refine .inr ⟨rfl, ?_⟩
    rcases hf : fetch s with _ | w
    · rw [step_of_no_fetch hh hf] at h; cases h
    · refine ⟨w, rfl, ?_⟩
      rcases hc : conditionPassed (decodeWord w).cond s with _ | _
      · rw [step_of_failed hh hf hc] at h; cases h; exact .inl ⟨rfl, rfl⟩
      · rw [step_of_passed hh hf hc] at h
        rcases he : exec (decodeWord w) s with u | r | r <;> rw [he] at h <;> cases h
        exact .inr ⟨rfl, u, rfl, rfl⟩
  · rw [step_of_halted hh] at h; cases h; exact .inl ⟨rfl, rfl⟩

/-- What a cycle of a session that is not stuck answers when the step does (R209). -/
theorem cpuCycle_of_next (h : step s = .next t) :
    cpuCycle ⟨s, false⟩ = (.report (reportOf s t), ⟨t, false⟩) := by simp [cpuCycle, h]

end Sys2Proof.Machine
end

