-- ==== Sys2Proof/Tests/Slice0.lean ====
section
/-! SUPPORT. The model's own tests: well-formedness, decoding, one-step tests with the values of
95_test_vectors.md, and a witness for the hypotheses of each obligation. -/

namespace Sys2Proof.Tests

open Sys2Proof.Machine Sys2Proof.Claims

/-! ### Helpers -/

/-- The convention of 95_test_vectors.md: the word at 0x100, the program counter there, every register, flag and byte of
memory that is not listed zero. -/
def start (w : Word) (regs : List (RegNum × Word)) (cpsr : Word) (mem : List (Nat × Word)) : State :=
  let t := (regs.foldl (fun s p => s.setReg p.1 p.2) State.reset).setReg 15 0x100#32
  placeWord { t with cpsr := cpsr, mem := mem.foldl (fun m p => Memory.writeWord m p.1 p.2) [] } w

/-- The next state of an outcome. -/
def after : Outcome → Option State
  | .next t => some t
  | _ => none

/-- A register, the status word and the program counter after one step. -/
def result (r : RegNum) (s : State) : Option (Word × Word × Word) :=
  (after (step s)).map fun t => (t.reg r, t.cpsr, t.pc)

/-- The fault of an outcome. -/
def faultOf : Outcome → Option Fault
  | .fault r => some r
  | _ => none

/-- A core with the reference parameters and nothing placed, its program counter at 0. -/
def blank : State := State.reset

/-! ### Well-formedness refuses -/

def dp (op2 : Operand2) : DpArgs := ⟨.al, false, 1, 0, op2⟩

def ls (p w : Bool) : LsArgs := ⟨.al, p, true, w, 1, 0, .imm 4#12⟩

/-- P = 0, W = 1 is no LDR, LDRB, STR or STRB. -/
theorem test_wf_refuses_unsupported_ldr : (Instr.ldr (ls false true)).wf = false := by decide
theorem test_wf_refuses_unsupported_ldrb : (Instr.ldrb (ls false true)).wf = false := by decide
theorem test_wf_refuses_unsupported_str : (Instr.str (ls false true)).wf = false := by decide
theorem test_wf_refuses_unsupported_strb : (Instr.strb (ls false true)).wf = false := by decide

/-- An AND or EOR with 1001 in bits 7:4 is a multiply. -/
theorem test_wf_refuses_multiply_and : (Instr.and (dp (.shiftReg 3 true .lsl 2))).wf = false := by decide
theorem test_wf_refuses_multiply_eor : (Instr.eor (dp (.shiftReg 3 true .lsl 2))).wf = false := by decide

/-- Bits of the SWI class are not unrecognised, nor those of the data-processing class. -/
theorem test_wf_refuses_recognised_swi : (Instr.unrecognised .al 0xF00000A#28).wf = false := by decide
theorem test_wf_refuses_recognised_add : (Instr.unrecognised .al 0x0800000#28).wf = false := by decide

/-- The three forms of unrecognised bits are well formed. -/
theorem test_wf_accepts_unrecognised :
    (Instr.unrecognised .al 0x8BD8000#28).wf = true ∧ (Instr.unrecognised .al 0xC000000#28).wf = true ∧
    (Instr.unrecognised .al 0xE000000#28).wf = true := by decide

/-- Region parameters that overlap, are unaligned, too small or pass 2^32 are refused (00_scope.md R7). -/
theorem test_params_refused :
    ¬ Params.wf ⟨0, 0x1000, 0xFFC, 0x1000, 0⟩ ∧ ¬ Params.wf ⟨2, 0x1000, 0x2000, 0x1000, 0⟩ ∧
    ¬ Params.wf ⟨0, 0, 0x2000, 0x1000, 0⟩ ∧ ¬ Params.wf ⟨0, 0x1000, 0xFFFFFFFC, 8, 0⟩ := by decide

/-! ### Decoding: a word for every constructor, written out from the formats of 30_encoding.md section 3 -/

theorem test_decode_swi : decodeWord 0b1110_1111_000000000000000000001010#32 = .swi ⟨.al, 10#24⟩ := by decide
theorem test_decode_mul :
    decodeWord 0b1110_000000_0_0_0000_0101_0010_1001_0001#32 = .mul ⟨.al, false, 0, 5, 2, 1⟩ := by decide
theorem test_decode_mla :
    decodeWord 0b0011_000000_1_1_0000_0011_0010_1001_0001#32 = .mla ⟨.cc, true, 0, 3, 2, 1⟩ := by decide
theorem test_decode_b : decodeWord 0b0000_101_0_111111111111111111111110#32 = .b ⟨.eq, 0xFFFFFE#24⟩ := by decide
theorem test_decode_bl : decodeWord 0b0001_101_1_000000000000000000000010#32 = .bl ⟨.ne, 2#24⟩ := by decide
theorem test_decode_ls_unsupported :
    decodeWord 0b1110_01_0_0_1_1_1_0_0001_0000_000000000100#32
      = .lsUnsupported ⟨.al, true, true, false, 1, 0, .imm 4#12⟩ := by decide
theorem test_decode_ldr :
    decodeWord 0b1110_01_0_1_0_0_1_1_0001_1110_000000000100#32
      = .ldr ⟨.al, true, false, true, 1, 14, .imm 4#12⟩ := by decide
theorem test_decode_ldrb :
    decodeWord 0b1110_01_1_0_1_1_0_1_0001_0000_00001_10_1_0010#32
      = .ldrb ⟨.al, false, true, false, 1, 0, .scaled 1#5 .asr true 2⟩ := by decide
theorem test_decode_str :
    decodeWord 0b1110_01_0_1_1_0_0_0_0001_0000_111111111111#32
      = .str ⟨.al, true, true, false, 1, 0, .imm 4095#12⟩ := by decide
theorem test_decode_strb :
    decodeWord 0b1110_01_1_1_1_1_0_0_0001_0000_00000_11_0_0010#32
      = .strb ⟨.al, true, true, false, 1, 0, .scaled 0#5 .ror false 2⟩ := by decide
theorem test_decode_and :
    decodeWord 0b1110_00_0_0000_1_0001_0000_00001_00_0_0010#32
      = .and ⟨.al, true, 1, 0, .shiftImm 1#5 .lsl 2⟩ := by decide
theorem test_decode_eor :
    decodeWord 0b1110_00_0_0001_0_0001_0000_0011_0_01_1_0010#32
      = .eor ⟨.al, false, 1, 0, .shiftReg 3 false .lsr 2⟩ := by decide
theorem test_decode_sub :
    decodeWord 0b1110_00_1_0010_1_0001_0000_1111_11111111#32 = .sub ⟨.al, true, 1, 0, .imm 15#4 255#8⟩ := by decide
theorem test_decode_rsb :
    decodeWord 0b1110_00_1_0011_1_0001_0000_0000_00000000#32 = .rsb ⟨.al, true, 1, 0, .imm 0#4 0#8⟩ := by decide
theorem test_decode_add :
    decodeWord 0b1111_00_1_0100_0_0000_0000_0000_00000001#32 = .add ⟨.never, false, 0, 0, .imm 0#4 1#8⟩ := by decide
theorem test_decode_adc :
    decodeWord 0b1000_00_0_0101_1_0001_0000_11111_11_0_0010#32
      = .adc ⟨.hi, true, 1, 0, .shiftImm 31#5 .ror 2⟩ := by decide
theorem test_decode_sbc :
    decodeWord 0b1011_00_0_0110_1_0001_0000_0000_1_10_1_0010#32
      = .sbc ⟨.lt, true, 1, 0, .shiftReg 0 true .asr 2⟩ := by decide
theorem test_decode_rsc :
    decodeWord 0b1101_00_0_0111_1_0001_0000_00000_00_0_0010#32
      = .rsc ⟨.le, true, 1, 0, .shiftImm 0#5 .lsl 2⟩ := by decide
theorem test_decode_tst :
    decodeWord 0b1110_00_1_1000_1_0001_0000_0001_00000010#32 = .tst ⟨.al, true, 1, 0, .imm 1#4 2#8⟩ := by decide
theorem test_decode_teq :
    decodeWord 0b1110_00_0_1001_0_0001_0101_00000_00_0_0010#32
      = .teq ⟨.al, false, 1, 5, .shiftImm 0#5 .lsl 2⟩ := by decide
theorem test_decode_cmp :
    decodeWord 0b1110_00_1_1010_1_0001_0000_0000_00000000#32 = .cmp ⟨.al, true, 1, 0, .imm 0#4 0#8⟩ := by decide
theorem test_decode_cmn :
    decodeWord 0b1110_00_0_1011_1_0001_0000_00000_00_0_0010#32
      = .cmn ⟨.al, true, 1, 0, .shiftImm 0#5 .lsl 2⟩ := by decide
theorem test_decode_orr :
    decodeWord 0b1110_00_1_1100_0_0001_0000_1100_11111111#32 = .orr ⟨.al, false, 1, 0, .imm 12#4 255#8⟩ := by decide
theorem test_decode_mov :
    decodeWord 0b1110_00_0_1101_0_0000_1111_00000_00_0_1110#32
      = .mov ⟨.al, false, 0, 15, .shiftImm 0#5 .lsl 14⟩ := by decide
theorem test_decode_bic :
    decodeWord 0b1110_00_1_1110_1_0001_0000_0000_11111111#32 = .bic ⟨.al, true, 1, 0, .imm 0#4 255#8⟩ := by decide
theorem test_decode_mvn :
    decodeWord 0b1110_00_0_1111_0_0000_0000_00100_00_0_0010#32
      = .mvn ⟨.al, false, 0, 0, .shiftImm 4#5 .lsl 2⟩ := by decide
theorem test_decode_unrecognised :
    decodeWord 0b1110_100_0101111011000000000000000#32 = .unrecognised .al 0x8BD8000#28 := by decide

/-- A multiply word also matches the data-processing pattern; the multiply comes first (30_encoding.md R63). -/
theorem test_decode_multiply_before_and : decodeWord 0xE0000291 = .mul ⟨.al, false, 0, 0, 2, 1⟩ := by decide

/-! ### One step: the rows of 95_test_vectors.md -/

theorem test_swi_halts : after (step (start 0xEF00000A [] 0 [])) = some (start 0xEF00000A [] 0 []).raiseHalt := by decide
theorem test_swi_other : result 0 (start 0xEF123456 [] 0 []) = some (0, 0, 0x104) := by decide
theorem test_mul : result 0 (start 0xE0000291 [(1, 6), (2, 7)] 0xF0000000 []) = some (0x2A, 0xF0000000, 0x104) := by decide
theorem test_muls_flags :
    let s := start 0xE0100291 [(1, 0xFFFFFFFF), (2, 2)] 0x10000000 []
    ∃ t, exec (.mul ⟨.al, true, 0, 0, 2, 1⟩) s = .next t ∧ t.reg 0 = 0xFFFFFFFE ∧ t.flag .n = true ∧ t.flag .z = false ∧
      t.flag .v = true := by
  refine ⟨_, rfl, by decide, ?_, ?_, ?_⟩ <;>
    rw [multiplyWrite_flag _ _ _ _ (by decide), if_pos rfl, State.setMulFlags_flag _ _ _ (by decide)] <;> decide
theorem test_mla :
    result 0 (start 0xE0203291 [(1, 0x12345678), (2, 0x9ABCDEF0), (3, 0x11111111)] 0 [])
      = some (0x353E3191, 0, 0x104) := by decide
theorem test_mlas_flags :
    let s := start 0xE0303291 [(1, 3), (2, 4), (3, 0xFFFFFFF4)] 0 []
    ∃ t, exec (.mla ⟨.al, true, 0, 3, 2, 1⟩) s = .next t ∧ t.reg 0 = 0 ∧ t.flag .n = false ∧ t.flag .z = true ∧
      t.flag .v = false := by
  refine ⟨_, rfl, by decide, ?_, ?_, ?_⟩ <;>
    rw [multiplyWrite_flag _ _ _ _ (by decide), if_pos rfl, State.setMulFlags_flag _ _ _ (by decide)] <;> decide
theorem test_b_to_itself : result 14 (start 0xEAFFFFFE [] 0 []) = some (0, 0, 0x100) := by decide
theorem test_b_forward : result 14 (start 0xEA7FFFFF [] 0 []) = some (0, 0, 0x02000104) := by decide
theorem test_bl : result 14 (start 0xEB000002 [] 0 []) = some (0x104, 0, 0x110) := by decide
theorem test_bl_skipped : result 14 (start 0x1B000002 [] 0x40000000 []) = some (0, 0x40000000, 0x104) := by decide
theorem test_ls_unsupported_halts :
    after (step (start 0xE4B10004 [(1, 0x30000000)] 0 []))
      = some (start 0xE4B10004 [(1, 0x30000000)] 0 []).raiseHalt := by decide
theorem test_ldr_post_indexed :
    (after (step (start 0xE4910004 [(1, 0x20000000)] 0 [(0x20000000, 0xCAFEBABE), (0x20000004, 0x11111111)]))).map
      (fun t => (t.reg 0, t.reg 1, t.pc)) = some (0xCAFEBABE, 0x20000004, 0x104) := by decide
theorem test_ldr_unaligned :
    result 0 (start 0xE5910001 [(1, 0x20000000)] 0 [(0x20000000, 0xAABBCCDD), (0x20000004, 0xEEFF0011)])
      = some (0xBBCCDDEE, 0, 0x104) := by decide
theorem test_ldrb :
    result 0 (start 0xE5D10003 [(0, 0xFFFFFFFF), (1, 0x20000000)] 0 [(0x20000000, 0xFD)])
      = some (0xFD, 0, 0x104) := by decide
theorem test_ldrb_past_region :
    faultOf (step (start 0xE5D10000 [(1, 0x20100000)] 0 [])) = some (.fatal .load 0x20100000) := by decide
theorem test_str_old_value :
    (after (step (start 0xE5A11004 [(1, 0x20000000)] 0 []))).map
      (fun t => (t.reg 1, t.memRead32 0x20000004)) = some (0x20000004, some 0x20000000) := by decide
theorem test_str_straddles :
    faultOf (step (start 0xE5810000 [(0, 0x01020304), (1, 0x200FFFFD)] 0 [])) = some (.fatal .store 0x200FFFFD) := by decide
theorem test_strb :
    (after (step (start 0xE5C10002 [(0, 0x123456AB), (1, 0x20000000)] 0 [(0x20000000, 0xFFFFFFFF)]))).map
      (fun t => t.memRead32 0x20000000) = some (some 0xFFFFABFF) := by decide
theorem test_ands_shifter_carry :
    result 0 (start 0xE0110082 [(1, 0xFFFFFFFF), (2, 0x80000001)] 0 []) = some (2, 0x20000000, 0x104) := by decide
theorem test_eors : result 0 (start 0xE0310001 [(1, 0x12345678)] 0x10000000 []) = some (0, 0x50000000, 0x104) := by decide
theorem test_subs_borrow : result 0 (start 0xE0510002 [(2, 1)] 0 []) = some (0xFFFFFFFF, 0x80000000, 0x104) := by decide
theorem test_subs_overflow :
    result 0 (start 0xE0510002 [(1, 0x80000000), (2, 1)] 0 []) = some (0x7FFFFFFF, 0x30000000, 0x104) := by decide
theorem test_rsbs :
    result 0 (start 0xE0710002 [(1, 3), (2, 10)] 0 []) = some (7, 0x20000000, 0x104) := by decide
theorem test_adds :
    result 0 (start 0xE0910002 [(1, 0x7FFFFFFF), (2, 1)] 0 []) = some (0x80000000, 0x90000000, 0x104) := by decide
theorem test_add_reads_own_address : result 0 (start 0xE28F0000 [] 0 []) = some (0x100, 0, 0x104) := by decide
theorem test_adcs_old_carry :
    result 0 (start 0xE0B10082 [(2, 0x80000000)] 0 []) = some (0, 0x40000000, 0x104) := by decide
theorem test_adcs :
    result 0 (start 0xE0B10002 [(1, 0xFFFFFFFF), (2, 0xFFFFFFFF)] 0x20000000 [])
      = some (0xFFFFFFFF, 0xA0000000, 0x104) := by decide
theorem test_sbcs :
    result 0 (start 0xE0D10002 [(1, 5), (2, 3)] 0 []) = some (1, 0x20000000, 0x104) := by decide
theorem test_sbcs_carry :
    result 0 (start 0xE0D10002 [(1, 5), (2, 3)] 0x20000000 []) = some (2, 0x20000000, 0x104) := by decide
theorem test_rscs :
    result 0 (start 0xE0F10002 [(1, 5), (2, 3)] 0x20000000 []) = some (0xFFFFFFFE, 0x80000000, 0x104) := by decide
theorem test_tst_without_s :
    result 0 (start 0xE1010002 [(1, 0xF0), (2, 0x0F)] 0xB0000000 []) = some (0, 0x70000000, 0x104) := by decide
theorem test_teq :
    result 0 (start 0xE1310002 [(1, 0x80000000)] 0 []) = some (0, 0x80000000, 0x104) := by decide
theorem test_cmp_ignores_rd :
    result 5 (start 0xE1515002 [(1, 2), (2, 1)] 0 []) = some (0, 0x20000000, 0x104) := by decide
theorem test_cmn :
    result 0 (start 0xE1710002 [(1, 0x7FFFFFFF), (2, 1)] 0 []) = some (0, 0x90000000, 0x104) := by decide
theorem test_orrs_lsr_32 :
    result 0 (start 0xE1910022 [(2, 0x80000000)] 0 []) = some (0, 0x60000000, 0x104) := by decide
theorem test_movs_rrx : result 0 (start 0xE1B00062 [(2, 2)] 0x20000000 []) = some (0x80000001, 0x80000000, 0x104) := by decide
theorem test_mov_to_pc : result 0 (start 0xE1A0F00E [(14, 0x200)] 0 []) = some (0, 0, 0x204) := by decide
theorem test_bics :
    result 0 (start 0xE3D100FF [(1, 0x12345678)] 0x20000000 []) = some (0x12345600, 0x20000000, 0x104) := by decide
theorem test_mvns : result 0 (start 0xE1F00002 [(2, 0xFFFFFFFF)] 0x80000000 []) = some (0, 0x40000000, 0x104) := by decide
theorem test_unrecognised : result 13 (start 0xE8BD8000 [(13, 0x20000000)] 0 []) = some (0x20000000, 0, 0x104) := by decide
theorem test_never_condition : result 0 (start 0xF2800001 [(0, 7)] 0xF0000000 []) = some (7, 0xF0000000, 0x104) := by decide
theorem test_withFetchWord :
    (after (step (State.reset.withFetchWord 32 0xE3A00005))).map (fun t => (t.reg 0, t.pc)) = some (5, 4) := by decide
theorem test_decodeTableWord : decodeTableWord 32 0xEF00000A = some (.swi ⟨.al, 10#24⟩) := by decide

/-! ### The host (95_test_vectors.md S7) -/

theorem test_host_word_then_byte :
    (hostStep (.memRead8 0x20000001) (hostStep (.memWrite32 0x20000000 0x11223344) .start).2).1 = .byte 0x22 := by decide
theorem test_host_unmapped : (hostStep (.memRead32 0x30000000) .start).1 = .fatal 0x30000000 := by decide

/-! ### The assembler syntax (encodings of 95_test_vectors.md) -/

theorem test_assemble_lsr_32 :
    (assemble 0 (.mov .al true 0 (.shifted 2 .lsr 32))).map encode = some 0xE1B00022 := by decide
theorem test_assemble_constant :
    (assemble 0 (.alu .orr .al false 0 1 (.const 0xFF00))).map encode = some 0xE3810CFF := by decide
theorem test_assemble_post_indexed :
    (assemble 0 (.ldr .al false 0 (.postIndexed 1 true (.const 4)))).map encode = some 0xE4910004 := by decide
theorem test_assemble_branch : (assemble 0x100 (.bl .al 0x110)).map encode = some 0xEB000002 := by decide

/-! ### Witnesses: a concrete state and operands that meet the hypotheses of each obligation -/

/-- Parameters other than the reference values: the least regions the spec allows, at the top of the address space and
side by side. -/
def tiny : Params := ⟨0xFFFFFFFC, 4, 0xFFFFFFF8, 4, 0xFFFFFF#24⟩

theorem witness_DecodeOfEncodeIsIdentity :
    (Instr.ldr (ls true true)).wf = true ∧ (Instr.and (dp (.shiftReg 3 true .ror 2))).wf = true ∧
    (Instr.unrecognised .al 0xE000000#28).wf = true := by decide

theorem witness_FourBytesDecodeOneInstruction :
    (Instr.strb (ls true false)).wf = true ∧ ([] : List Byte).length < 4 ∧ [0#8, 0#8, 0#8].length < 4 := by decide

theorem witness_ResetsLeaveTheStatedValues :
    InRegion tiny (0xFFFFFFFF#32 : Word).toNat 1 ∧ tiny.wf ∧ InRegion Params.reference 0x200FFFFF 1 ∧
    Params.reference.wf :=
  ⟨.inl (by decide), by decide, .inr (by decide), by decide⟩

theorem witness_ResetMeetsInvariant : tiny.wf := by decide

/-- A state that no run from reset is needed for: memory listed in both regions, flags set. -/
def busy (w : Word) : State := start w [(1, 0x20000000), (14, 0x200)] 0xF0000000 [(0x20000000, 0xCAFEBABE)]

theorem witness_StepKeepsInvariant :
    (busy 0xE4810004).wf ∧ (after (step (busy 0xE4810004))).isSome = true := by decide

theorem witness_HostOperationsKeepInvariant : (busy 0xE4810004).wf ∧ Session.start.core.wf := by decide

theorem witness_StepPreservesUnusedStatusBits :
    (after (step { busy 0xE1510002 with cpsr := 0x0ABCDEF0 })).isSome = true := by decide

/-- A branch, and an instruction that does not write register 15. -/
theorem witness_ProgramCounterStaysAligned :
    ((busy 0xEAFFFFFE).pc.toNat % 4 = 0 ∧ fetch (busy 0xEAFFFFFE) = some 0xEAFFFFFE ∧
      decodeWord 0xEAFFFFFE = .b ⟨.al, 0xFFFFFE#24⟩ ∧ (after (step (busy 0xEAFFFFFE))).isSome = true) ∧
    (busy 0xE0910002).pc.toNat % 4 = 0 ∧ fetch (busy 0xE0910002) = some 0xE0910002 ∧
    Config.pcIndex ∉ registersWritten (decodeWord 0xE0910002) ∧ (after (step (busy 0xE0910002))).isSome = true := by decide

/-- The four clauses: a failed condition, a next state that runs on, one that is halted, a Fatal. -/
theorem witness_StepRunsDecodedInstruction :
    ((busy 0x1A000000).halted = false ∧ (busy 0x1A000000).memRead32 ((busy 0x1A000000).reg 15) = some 0x1A000000 ∧
      conditionPassed (decodeWord 0x1A000000).cond (busy 0x1A000000) = false) ∧
    ((after (exec (decodeWord 0xE0910002) (busy 0xE0910002))).map (·.halted) = some false) ∧
    ((after (exec (decodeWord 0xEF00000A) (busy 0xEF00000A))).map (·.halted) = some true) ∧
    faultOf (exec (decodeWord 0xE59E0FFF) { busy 0xE59E0FFF with mem := [], params := tiny })
      = some (.fatal .load 0x11FF) := by decide

theorem witness_HaltedCoreOnlyLeavesByReset :
    (busy 0).raiseHalt.halted = true ∧ HostOp.setReg 15 0 ≠ .initialise ∧ HostOp.setReg 15 0 ≠ .resetCpu := by decide

theorem witness_HaltedStateIsTerminal : ((busy 0).raiseHalt.setReg 15 0x30000000).halted = true := by decide

/-- Program counters two bytes before the end of the text region, and unmapped. -/
theorem witness_UnfetchableWordIsFatal :
    (blank.setReg 15 0x000FFFFE).params.wf ∧ (blank.setReg 15 0x000FFFFE).halted = false ∧
    (blank.setReg 15 0x000FFFFE).reg 15 = 0x000FFFFE ∧ ¬ InRegion Params.reference (0x000FFFFE#32 : Word).toNat 4 ∧
    (blank.setReg 15 0x30000000).halted = false ∧ (blank.setReg 15 0x30000000).reg 15 = 0x30000000 ∧
    ¬ InRegion Params.reference (0x30000000#32 : Word).toNat 4 :=
  ⟨by decide, by decide, by decide, by simp [InRegion, Params.reference], by decide, by decide,
    by simp [InRegion, Params.reference]⟩

theorem witness_FailedConditionOnlyAdvances :
    (busy 0xFF00000A).halted = false ∧ fetch (busy 0xFF00000A) = some 0xFF00000A ∧
    conditionPassed (decodeWord 0xFF00000A).cond (busy 0xFF00000A) = false := by decide

/-- Both causes of a halt. -/
theorem witness_HaltIsPreciseAndHasTwoCauses :
    (busy 0xEF00000A).halted = false ∧ fetch (busy 0xEF00000A) = some 0xEF00000A ∧
    conditionPassed (decodeWord 0xEF00000A).cond (busy 0xEF00000A) = true ∧
    (after (step (busy 0xEF00000A))).map (·.halted) = some true ∧
    (busy 0xE4B10004).halted = false ∧ fetch (busy 0xE4B10004) = some 0xE4B10004 ∧
    conditionPassed (decodeWord 0xE4B10004).cond (busy 0xE4B10004) = true ∧
    IsHalting (decodeWord 0xEF00000A) (busy 0xEF00000A) ∧ IsHalting (decodeWord 0xE4B10004) (busy 0xE4B10004) :=
  ⟨by decide, by decide, by decide, by decide, by decide, by decide, by decide,
    .inl ⟨⟨.al, 10#24⟩, by decide, by decide⟩, .inr ⟨_, rfl⟩⟩

/-- The four accesses, each at the first address that is one too far: three bytes before the end of the data region for
a word, past its end for a byte. -/
theorem witness_OnlyMemoryAccessesAreFatal :
    blank.params.wf ∧
    faultOf (exec (.ldr ⟨.al, true, true, false, 1, 0, .imm 0#12⟩) (blank.setReg 1 0x200FFFFD))
      = some (.fatal .load 0x200FFFFD) ∧
    faultOf (exec (.ldrb ⟨.al, true, true, false, 1, 0, .imm 0#12⟩) (blank.setReg 1 0x20100000))
      = some (.fatal .load 0x20100000) ∧
    faultOf (exec (.str ⟨.al, true, true, false, 1, 0, .imm 0#12⟩) (blank.setReg 1 0x200FFFFD))
      = some (.fatal .store 0x200FFFFD) ∧
    faultOf (exec (.strb ⟨.al, true, true, false, 1, 0, .imm 0#12⟩) (blank.setReg 1 0x20100000))
      = some (.fatal .store 0x20100000) := by decide

theorem witness_OtherInstructionsIgnoreMemory : ¬ AccessesMemory (.add (dp (.shiftImm 0#5 .lsl 15))) := by
  rintro ⟨a, h | h | h | h⟩ <;> cases h

/-- A flag-setting multiply draws; an instruction of every other shape keeps the halted flag and stores nothing. -/
theorem witness_EveryInstructionKeepsItsFrame :
    (after (exec (.mul ⟨.al, true, 0, 0, 2, 1⟩) blank)).map (fun t => decide (t.mulDraws ≠ blank.mulDraws)) = some true ∧
    (after (exec (.ldr (ls true true)) (blank.setReg 1 0x20000000))).isSome = true ∧
    (Instr.ldr (ls true true)).wf = true ∧ ¬ IsHalting (.ldr (ls true true)) blank ∧ ¬ IsStore (.ldr (ls true true)) := by
  refine ⟨by decide, by decide, by decide, ?_, ?_⟩
  · rintro (⟨a, h, -⟩ | ⟨a, h⟩) <;> cases h
  · rintro ⟨a, h | h⟩ <;> cases h

/-- A zero rotation, and the least and the greatest other one. -/
theorem witness_ImmediateOperandIsRotated :
    (0#4).toNat = 0 ∧ shifterOperand (.imm 0#4 0xFF#8) blank = ⟨0xFF, false⟩ ∧
    (1#4).toNat ≠ 0 ∧ shifterOperand (.imm 1#4 0xFF#8) blank = ⟨0xC000003F, true⟩ ∧
    (15#4).toNat ≠ 0 ∧ shifterOperand (.imm 15#4 0xFF#8) blank = ⟨0x3FC, false⟩ := by decide

/-- A state whose registers 2 and 3 are given: an operand and an amount. -/
def operands (v n : Word) : State := (blank.setReg 2 v).setReg 3 n

/-- The amounts 0, 1 and 31 of LSL and ROR. -/
theorem witness_LeftShiftAndRotateByImmediate :
    shifterOperand (.shiftImm 0#5 .lsl 2) (operands 0x80000001 0) = ⟨0x80000001, false⟩ ∧
    shifterOperand (.shiftImm 1#5 .lsl 2) (operands 0x80000001 0) = ⟨2, true⟩ ∧
    shifterOperand (.shiftImm 31#5 .lsl 2) (operands 3 0) = ⟨0x80000000, true⟩ ∧
    shifterOperand (.shiftImm 0#5 .ror 2) (operands 1 0) = ⟨0, true⟩ ∧
    shifterOperand (.shiftImm 1#5 .ror 2) (operands 1 0) = ⟨0x80000000, true⟩ ∧
    shifterOperand (.shiftImm 31#5 .ror 2) (operands 1 0) = ⟨2, false⟩ := by decide

/-- The amounts 0, which means 32, 1 and 31 of LSR and ASR. -/
theorem witness_RightShiftsByImmediate :
    shifterOperand (.shiftImm 0#5 .lsr 2) (operands 0x80000000 0) = ⟨0, true⟩ ∧
    shifterOperand (.shiftImm 1#5 .lsr 2) (operands 3 0) = ⟨1, true⟩ ∧
    shifterOperand (.shiftImm 31#5 .lsr 2) (operands 0xC0000000 0) = ⟨1, true⟩ ∧
    shifterOperand (.shiftImm 0#5 .asr 2) (operands 0x80000000 0) = ⟨0xFFFFFFFF, true⟩ ∧
    shifterOperand (.shiftImm 1#5 .asr 2) (operands 0x80000001 0) = ⟨0xC0000000, true⟩ ∧
    shifterOperand (.shiftImm 31#5 .asr 2) (operands 0x40000000 0) = ⟨0, true⟩ := by decide

/-- The amounts 0, 31, 32 and 255, and one whose low byte is 0. -/
theorem witness_LogicalShiftsByRegister :
    shifterOperand (.shiftReg 3 false .lsl 2) (operands 0x80000001 0x100) = ⟨0x80000001, false⟩ ∧
    shifterOperand (.shiftReg 3 false .lsl 2) (operands 3 31) = ⟨0x80000000, true⟩ ∧
    shifterOperand (.shiftReg 3 false .lsl 2) (operands 1 32) = ⟨0, false⟩ ∧
    shifterOperand (.shiftReg 3 false .lsr 2) (operands 0x80000000 31) = ⟨1, false⟩ ∧
    shifterOperand (.shiftReg 3 false .lsr 2) (operands 0x80000000 32) = ⟨0, false⟩ ∧
    shifterOperand (.shiftReg 3 true .lsr 2) (operands 0xFFFFFFFF 255) = ⟨0, false⟩ := by decide

/-- The amounts 31, 32, 33 and 255. -/
theorem witness_ArithmeticShiftAndRotateByRegister :
    shifterOperand (.shiftReg 3 false .asr 2) (operands 0x80000000 31) = ⟨0xFFFFFFFF, false⟩ ∧
    shifterOperand (.shiftReg 3 false .asr 2) (operands 0x80000000 32) = ⟨0xFFFFFFFF, true⟩ ∧
    shifterOperand (.shiftReg 3 false .asr 2) (operands 0x7FFFFFFF 255) = ⟨0, false⟩ ∧
    shifterOperand (.shiftReg 3 false .ror 2) (operands 0x80000001 32) = ⟨0x80000001, true⟩ ∧
    shifterOperand (.shiftReg 3 false .ror 2) (operands 0xF 36) = ⟨0xF0000000, true⟩ := by decide

/-- The four index modes, both directions and both offsets. -/
theorem witness_AddressResolverFollowsIndexMode :
    resolveAddress (ls false false) (blank.setReg 1 8) = .access 8 ((blank.setReg 1 8).setReg 1 12) ∧
    resolveAddress (ls true true) (blank.setReg 1 8) = .access 12 ((blank.setReg 1 8).setReg 1 12) ∧
    resolveAddress (ls true false) (blank.setReg 1 8) = .access 12 (blank.setReg 1 8) ∧
    resolveAddress (ls false true) blank = .unsupported ∧
    movedBase ⟨.al, true, false, false, 2, 0, .scaled 2#5 .lsl false 3⟩ (operands 0 1) = 0xFFFFFFFC := by decide

/-- S = 1 for each group of data-processing and multiply instructions. -/
theorem witness_LogicalInstructions : ({ dp (.imm 0#4 1#8) with s := true } : DpArgs).s = true := by decide

theorem witness_AdditionInstructions :
    ({ dp (.imm 0#4 1#8) with s := true } : DpArgs).s = true ∧
    (addWithCarry 0xFFFFFFFF 0 true) = ⟨0, true, false⟩ ∧ (addWithCarry 0x7FFFFFFF 0 true) = ⟨0x80000000, false, true⟩ := by
  decide

theorem witness_SubtractionInstructions :
    ({ dp (.imm 0#4 1#8) with s := true } : DpArgs).s = true ∧
    (addWithCarry 5 (~~~5) true) = ⟨0, true, false⟩ ∧ (addWithCarry 4 (~~~5) true) = ⟨0xFFFFFFFF, false, false⟩ := by decide

theorem witness_SubtractionWithCarryInstructions :
    ({ dp (.imm 0#4 1#8) with s := true } : DpArgs).s = true ∧
    (addWithCarry 5 (~~~5) false) = ⟨0xFFFFFFFF, false, false⟩ ∧ (addWithCarry 5 (~~~4) false) = ⟨0, true, false⟩ := by decide

/-- A chain whose low half carries, with distinct destinations and a second operand that the first leaves. -/
theorem witness_CarryChainsAreDoubleWordArithmetic :
    let a : DpArgs := ⟨.al, true, 2, 0, .shiftImm 0#5 .lsl 3⟩
    let b : DpArgs := ⟨.al, false, 4, 1, .shiftImm 0#5 .lsl 5⟩
    a.s = true ∧ a.rd ≠ b.rd ∧ b.rn ≠ a.rd ∧
    (after (exec (.add a) (operands 0xFFFFFFFF 1))).map (fun t => (t.reg 0, t.flag .c)) = some (0, true) := by decide

theorem witness_MultiplyInstructions : (⟨.al, true, 0, 3, 2, 1⟩ : MulArgs).s = true := by decide

/-- HALT_IMM and another immediate, a passed and a failed condition. -/
theorem witness_SoftwareInterrupt :
    (busy 0xEF00000A).halted = false ∧ fetch (busy 0xEF00000A) = some 0xEF00000A ∧
    (busy 0x1F00000A).halted = false ∧ fetch (busy 0x1F00000A) = some 0x1F00000A ∧
    (busy 0xEF00000B).halted = false ∧ fetch (busy 0xEF00000B) = some 0xEF00000B ∧
    (0xEF00000A#32 : Word).extractLsb' 24 4 = 0b1111#4 ∧ (0x1F00000A#32 : Word).extractLsb' 24 4 = 0b1111#4 ∧
    (10#24 : BitVec 24) = (busy 0xEF00000A).params.haltImm ∧ (11#24 : BitVec 24) ≠ (busy 0xEF00000B).params.haltImm ∧
    conditionPassed .al (busy 0xEF00000A) = true ∧ conditionPassed .ne (busy 0x1F00000A) = false := by decide

/-- A passed and a failed condition. -/
theorem witness_UnsupportedLoadStoreHalts :
    (busy 0xE4B10004).halted = false ∧ fetch (busy 0xE4B10004) = some 0xE4B10004 ∧
    (0xE4B10004#32 : Word).extractLsb' 26 2 = 0b01#2 ∧ (0xE4B10004#32 : Word).getLsbD 24 = false ∧
    (0xE4B10004#32 : Word).getLsbD 21 = true ∧
    (busy 0x16F10002).halted = false ∧ fetch (busy 0x16F10002) = some 0x16F10002 ∧
    (0x16F10002#32 : Word).extractLsb' 26 2 = 0b01#2 ∧ (0x16F10002#32 : Word).getLsbD 24 = false ∧
    (0x16F10002#32 : Word).getLsbD 21 = true ∧
    conditionPassed (decodeWord 0xE4B10004).cond (busy 0xE4B10004) = true ∧
    conditionPassed (decodeWord 0x16F10002).cond (busy 0x16F10002) = false ∧
    (ls false true).p = false ∧ (ls false true).w = true := by decide

/-- The three patterns of unrecognised words. -/
theorem witness_UnrecognisedWordsOnlyAdvance :
    (busy 0xE8BD8000).halted = false ∧ fetch (busy 0xE8BD8000) = some 0xE8BD8000 ∧
    (busy 0xEC000000).halted = false ∧ fetch (busy 0xEC000000) = some 0xEC000000 ∧
    (busy 0xEEFFFFFF).halted = false ∧ fetch (busy 0xEEFFFFFF) = some 0xEEFFFFFF ∧
    (0xE8BD8000#32 : Word).extractLsb' 25 3 = 0b100#3 ∧ (0xEC000000#32 : Word).extractLsb' 25 3 = 0b110#3 ∧
    (0xEEFFFFFF#32 : Word).extractLsb' 24 4 = 0b1110#4 := by decide

/-- The last word and the last byte of the data region. -/
def lastWord : LsArgs := ⟨.al, true, true, true, 1, 0, .imm 0xFFC#12⟩

def lastByte : LsArgs := ⟨.al, true, true, true, 1, 0, .imm 0xFFF#12⟩

def nearEnd : State := blank.setReg 1 0x200FF000

theorem witness_LoadWord :
    nearEnd.params.wf ∧ (∃ n, resolveAddress lastWord nearEnd = .access 0x200FFFFC n) ∧
    InRegion nearEnd.params (0x200FFFFC#32 : Word).toNat 4 ∧ lastWord.p = lastWord.w ∧ lastWord.rn ≠ lastWord.rd :=
  ⟨by decide, ⟨nearEnd.setReg 1 0x200FFFFC, by decide⟩, .inr (by decide), by decide, by decide⟩

theorem witness_LoadByte :
    nearEnd.params.wf ∧ (∃ n, resolveAddress lastByte nearEnd = .access 0x200FFFFF n) ∧
    InRegion nearEnd.params (0x200FFFFF#32 : Word).toNat 1 ∧ lastByte.p = lastByte.w ∧ lastByte.rn ≠ lastByte.rd :=
  ⟨by decide, ⟨nearEnd.setReg 1 0x200FFFFF, by decide⟩, .inr (by decide), by decide, by decide⟩

theorem witness_StoreWord :
    nearEnd.params.wf ∧ Memory.wf nearEnd.mem ∧ (∃ n, resolveAddress lastWord nearEnd = .access 0x200FFFFC n) ∧
    InRegion nearEnd.params (0x200FFFFC#32 : Word).toNat 4 ∧ lastWord.p = lastWord.w ∧ byteAddr 0x200FFFFC 3 = 0x200FFFFF :=
  ⟨by decide, by decide, ⟨nearEnd.setReg 1 0x200FFFFC, by decide⟩, .inr (by decide), by decide, by decide⟩

theorem witness_StoreByte :
    nearEnd.params.wf ∧ Memory.wf nearEnd.mem ∧ (∃ n, resolveAddress lastByte nearEnd = .access 0x200FFFFF n) ∧
    InRegion nearEnd.params (0x200FFFFF#32 : Word).toNat 1 ∧ lastByte.p = lastByte.w ∧ (0x20000000#32 : Word) ≠ 0x200FFFFF :=
  ⟨by decide, by decide, ⟨nearEnd.setReg 1 0x200FFFFF, by decide⟩, .inr (by decide), by decide, by decide⟩

/-- One byte too far, for a word and for a byte. -/
theorem witness_AccessOutsideOneRegionIsFatal :
    (nearEnd.setReg 1 0x200FF001).params.wf ∧
    (∃ n, resolveAddress lastWord (nearEnd.setReg 1 0x200FF001) = .access 0x200FFFFD n) ∧
    ¬ InRegion nearEnd.params (0x200FFFFD#32 : Word).toNat 4 ∧
    (∃ n, resolveAddress lastByte (nearEnd.setReg 1 0x200FF001) = .access 0x20100000 n) ∧
    ¬ InRegion nearEnd.params (0x20100000#32 : Word).toNat 1 :=
  ⟨by decide, ⟨(nearEnd.setReg 1 0x200FF001).setReg 1 0x200FFFFD, by decide⟩, by simp [InRegion, nearEnd, blank, State.reset, State.initial, Params.reference],
    ⟨(nearEnd.setReg 1 0x200FF001).setReg 1 0x20100000, by decide⟩, by simp [InRegion, nearEnd, blank, State.reset, State.initial, Params.reference]⟩

theorem witness_StoreIsSeenByTheNextFetch :
    Memory.wf nearEnd.mem ∧ (∃ n, resolveAddress lastWord nearEnd = .access 0x200FFFFC n) ∧
    (after (exec (.str lastWord) nearEnd)).isSome = true :=
  ⟨by decide, ⟨nearEnd.setReg 1 0x200FFFFC, by decide⟩, by decide⟩

theorem witness_AccessesSucceedExactlyInsideOneRegion : blank.params.wf ∧ tiny.wf := by decide

/-- The first and the last word of a region, and the whole of the least region. -/
theorem witness_WordWriteReadsBackBigEndian :
    blank.params.wf ∧ Memory.wf blank.mem ∧ InRegion blank.params (0#32 : Word).toNat 4 ∧
    InRegion blank.params (0x000FFFFC#32 : Word).toNat 4 ∧ InRegion tiny (0xFFFFFFFC#32 : Word).toNat 4 :=
  ⟨by decide, by decide, .inl (by decide), .inl (by decide), .inl (by decide)⟩

theorem witness_ByteWritesMakeTheWord :
    blank.params.wf ∧ Memory.wf blank.mem ∧ InRegion blank.params (0x200FFFFC#32 : Word).toNat 4 :=
  ⟨by decide, by decide, .inr (by decide)⟩

/-- A program that fills the text region, and one word too many. -/
theorem witness_LoadProgramPlacesWords :
    tiny.wf ∧ Memory.wf (State.initial tiny).mem ∧ 4 * [(1#32 : Word)].length ≤ tiny.textSize ∧
    tiny.textSize < 4 * [(1#32 : Word), 2].length ∧ 4 * (0 + 1) ≤ tiny.textSize ∧
    ¬ (tiny.textBase ≤ (0xFFFFFFFB#32 : Word).toNat ∧ (0xFFFFFFFB#32 : Word).toNat < tiny.textBase + tiny.textSize) := by
  decide

theorem witness_FatalLeavesTheSessionStuck :
    (hostStep .cpuCycle ⟨blank.setReg 15 0x000FFFFD, false⟩).1 = .report .fatal ∧
    (hostStep .cpuCycle ⟨blank, true⟩).1 = .report .fatal ∧ (⟨blank, true⟩ : Session).stuck = true ∧
    HostOp.setReg 15 0 ≠ .initialise ∧ HostOp.setReg 15 0 ≠ .resetCpu := by decide

/-- A running core, and a halted one with an unmapped program counter; no bit and all 32. -/
theorem witness_PlacedWordIsFetchedNext :
    blank.params.wf ∧ Memory.wf (blank.setReg 15 0x30000000).raiseHalt.mem ∧ 0 ≤ 32 ∧ 0 < 2 ^ 0 ∧ 32 ≤ 32 ∧
    0xFFFFFFFF < 2 ^ 32 := by decide

theorem witness_AssembledInstructionsAreWellFormed :
    (assemble 0 (.alu .and .al false 0 1 (.shiftedByReg 2 .lsl 3))).isSome = true ∧
    (assemble 0 (.userMode .al true false 0 1 true (.const 4))).isSome = true := by decide

/-- The greatest rotation, and a value that is no rotated 8-bit constant. -/
theorem witness_AssembledConstantsHaveTheirValue :
    assembleOperand2 (.const 0x3FC) = some (.imm 15#4 0xFF#8) ∧ assembleOperand2 (.const 0x101) = none := by decide

/-- The two ends of the range of a branch. -/
theorem witness_AssembledBranchReachesItsTarget :
    (blank.setReg 15 0x100).reg 15 = 0x100 ∧
    (0x02000104 - 0x100 : Word).toNat % 4 = 0 ∧ -2 ^ 25 ≤ (0x02000104 - 0x100 - 8#32 : Word).toInt ∧
    (0x02000104 - 0x100 - 8#32 : Word).toInt < 2 ^ 25 ∧
    (0xFE000108 - 0x100 : Word).toNat % 4 = 0 ∧ -2 ^ 25 ≤ (0xFE000108 - 0x100 - 8#32 : Word).toInt ∧
    (0xFE000108 - 0x100 - 8#32 : Word).toInt < 2 ^ 25 := by decide

end Sys2Proof.Tests
end

section
/-! What the two resets leave, field by field (50_host_interface.md R216, R217), and the obligation about them. -/

namespace Sys2Proof.Machine

open Sys2Proof.Claims

variable (s : State) (q : RegNum)

/-! ### `resetCpu` -/

theorem resetCpu_reg :
    (resetCpu s).reg q = if q = 15 then BitVec.ofNat 32 s.params.textBase else 0#32 := by
  simp only [State.reg, resetCpu, Fin.getElem_fin, Vector.getElem_set, Vector.getElem_replicate, Fin.ext_iff, eq_comm]
  rfl

@[simp] theorem resetCpu_cpsr : (resetCpu s).cpsr = 0#32 := rfl
@[simp] theorem resetCpu_halted : (resetCpu s).halted = false := rfl
@[simp] theorem resetCpu_mem : (resetCpu s).mem = s.mem := rfl
@[simp] theorem resetCpu_params : (resetCpu s).params = s.params := rfl

/-! ### `initialise` -/

/-- The memory cleared first has no effect on the other fields. -/
theorem initialise_reg : (initialise s).reg q = (resetCpu s).reg q := rfl

@[simp] theorem initialise_cpsr : (initialise s).cpsr = 0#32 := rfl
@[simp] theorem initialise_halted : (initialise s).halted = false := rfl
@[simp] theorem initialise_mem : (initialise s).mem = [] := rfl
@[simp] theorem initialise_params : (initialise s).params = s.params := rfl

/-- After `initialize` every byte of both regions is zero (10_state.md R37). -/
theorem initialise_memRead8 {a : Word} (hp : s.params.wf) (h : InRegion s.params a.toNat 1) :
    (initialise s).memRead8 a = some 0x00#8 :=
  State.memRead8_eq_some.2 ⟨(accessible_iff hp one_pos).2 h, rfl⟩

/-- Settles O7: both resets leave the same registers, status word and halted flag; `initialize` clears the memory
first, `reset_cpu` does not touch it. -/
theorem resetsLeaveTheStatedValues : Obligations.ResetsLeaveTheStatedValues := by
  intro s t ht
  have hreg (q : RegNum) : t.reg q = (resetCpu s).reg q := by
    rcases ht with rfl | rfl
    · rfl
    · exact initialise_reg s q
  have hrest : t.cpsr = 0#32 ∧ t.halted = false ∧ t.params = s.params := by
    rcases ht with rfl | rfl <;> simp
  obtain ⟨hcpsr, hhalted, hparams⟩ := hrest
  refine ⟨fun q hq => ?_, ?_, hcpsr, hhalted, hparams, ?_, ?_⟩
  · rw [hreg, resetCpu_reg, if_neg hq]
  · rw [hreg, resetCpu_reg, if_pos rfl]
  · rintro rfl
    exact resetCpu_mem s
  · rintro rfl a ha hp
    exact initialise_memRead8 s hp ha

end Sys2Proof.Machine
end

section
/-! A word of no class (30_encoding.md R77): it decodes to `unrecognised`, has no effect, and its cycle only advances
the program counter; and the obligation about it. -/

namespace Sys2Proof.Machine

open Sys2Proof.Claims

/-! ### The advance of the program counter -/

theorem State.advancePc_reg_pc {s : State} (h : s.halted = false) : s.advancePc.reg 15 = s.reg 15 + 4#32 := by
  rw [State.advancePc_of_running s h]
  exact State.reg_setReg_self s Config.pcIndex (s.pc + instrBytes)

@[simp] theorem State.advancePc_flag (s : State) (f : Flag) : s.advancePc.flag f = s.flag f := by simp [State.flag]

@[simp] theorem State.advancePc_memRead8 (s : State) (a : Word) : s.advancePc.memRead8 a = s.memRead8 a := by
  simp [State.memRead8]

/-- The advance changes nothing but x15 (48_cycle_engine.md R206). -/
theorem State.advancePc_frame (s : State) : Frame s s.advancePc [15] [] :=
  ⟨fun q hq => s.advancePc_reg_of_ne q (mt List.mem_singleton.2 hq), fun f _ => s.advancePc_flag f,
    congrArg _ s.advancePc_cpsr, s.advancePc_halted, s.advancePc_params, s.advancePc_memRead8⟩

/-! ### The unrecognised word -/

/-- A word that matches no class pattern is unrecognised (30_encoding.md R63, R64). -/
theorem decodeWord_of_outside {w : Word}
    (h : w.extractLsb' 25 3 = 0b100#3 ∨ w.extractLsb' 25 3 = 0b110#3 ∨ w.extractLsb' 24 4 = 0b1110#4) :
    decodeWord w = .unrecognised (condOf w) (w.extractLsb' 0 28) := by
  obtain ⟨hswi, hmul, hbranch, hls, hdp⟩ := outside_patterns h
  simp only [decodeWord, if_neg hswi, if_neg hmul, if_neg hbranch, if_neg hls, if_neg hdp]

@[simp] theorem exec_unrecognised (c : Cond) (bits : BitVec 28) (s : State) :
    exec (.unrecognised c bits) s = .next s := rfl

/-- Whether its condition passes or fails, an unrecognised word only has the program counter advance. -/
theorem step_of_unrecognised {s : State} {w : Word} {c : Cond} {bits : BitVec 28} (h : s.halted = false)
    (hf : fetch s = some w) (hd : decodeWord w = .unrecognised c bits) : step s = .next s.advancePc := by
  rcases hc : conditionPassed (decodeWord w).cond s with _ | _
  · exact step_of_failed h hf hc
  · rw [step_of_passed h hf hc, hd, exec_unrecognised, commit]

/-- A cycle that neither starts nor ends halted reports OK (48_cycle_engine.md R209). -/
theorem reportOf_of_running {s t : State} (hs : s.halted = false) (ht : t.halted = false) : reportOf s t = .ok := by
  simp [reportOf, hs, ht]

/-- Settles O42: a word that matches no class pattern decodes to `unrecognised`, which has no effect, so its cycle is
the advance of the program counter. -/
theorem unrecognisedWordsOnlyAdvance : Obligations.UnrecognisedWordsOnlyAdvance := by
  refine ⟨exec_unrecognised, fun s w hs hf hw => ?_⟩
  have hstep : step s = .next s.advancePc := step_of_unrecognised hs hf (decodeWord_of_outside hw)
  have hreport : reportOf s s.advancePc = .ok := reportOf_of_running hs (s.advancePc_halted.trans hs)
  refine ⟨s.advancePc, hstep, State.advancePc_reg_pc hs, s.advancePc_frame, ?_⟩
  calc hostStep .cpuCycle ⟨s, false⟩ = cpuCycle ⟨s, false⟩ := rfl
    _ = (.report (reportOf s s.advancePc), ⟨s.advancePc, false⟩) := cpuCycle_of_next hstep
    _ = (.report .ok, ⟨s.advancePc, false⟩) := by rw [hreport]

end Sys2Proof.Machine
end

section
/-! The shifter operand, the rotated immediate and the left shifts and rotations by an immediate amount
(41_shifter_operand.md R102, R103, R106, R107), bit by bit, and the obligations about them. -/

namespace Sys2Proof.Machine

/-- Bit `k` of a rotation right comes from bit `(k + n) mod 32`. -/
theorem getLsbD_rotateRight_word (v : Word) {n k : Nat} (hn : n < 32) (hk : k < 32) :
    (v.rotateRight n).getLsbD k = v.getLsbD ((k + n) % 32) := by
  rw [BitVec.getLsbD_rotateRight_of_lt hn]
  by_cases h : k < 32 - n
  · have hidx : (k + n) % 32 = n + k := by omega
    simp [h, hidx]
  · have hidx : (k + n) % 32 = k - (32 - n) := by omega
    simp [h, hk, hidx]

/-! ### The rotated immediate -/

section Immediate

variable (rot : BitVec 4) (imm8 : BitVec 8) (c : Bool)

theorem immediateOperand_getLsbD {k : Nat} (hk : k < 32) :
    (immediateOperand rot imm8 c).value.getLsbD k = imm8.getLsbD ((k + 2 * rot.toNat) % 32) := by
  have hr : 2 * rot.toNat < 32 := by omega
  have hidx : (k + 2 * rot.toNat) % 32 < 32 := Nat.mod_lt _ (by decide)
  calc (immediateOperand rot imm8 c).value.getLsbD k
      = (imm8.zeroExtend 32).getLsbD ((k + 2 * rot.toNat) % 32) := getLsbD_rotateRight_word _ hr hk
    _ = imm8.getLsbD ((k + 2 * rot.toNat) % 32) := by simp [hidx]

theorem immediateOperand_carry :
    (immediateOperand rot imm8 c).carry =
      if rot.toNat = 0 then c else (immediateOperand rot imm8 c).value.getLsbD 31 := by
  simp [immediateOperand]

end Immediate

/-- Settles O24: the value is a rotation by twice the rotate field, and the carry-out is C exactly for the field 0. -/
theorem immediateOperandIsRotated : Obligations.ImmediateOperandIsRotated := by
  intro rot imm8 s
  have hcarry := immediateOperand_carry rot imm8 (s.flag .c)
  exact ⟨fun k hk => immediateOperand_getLsbD rot imm8 _ hk, fun h => hcarry.trans (if_pos h),
    fun h => hcarry.trans (if_neg h)⟩

/-! ### LSL, ROR and RRX by an immediate amount -/

section Amount

variable (v : Word) (n : Nat) (c : Bool)

theorem shiftByImm_lsl_value : (shiftByImm .lsl v n c).value = v <<< n := by
  by_cases h : n = 0 <;> simp [shiftByImm, h]

theorem shiftByImm_lsl_carry :
    (shiftByImm .lsl v n c).carry = if n = 0 then c else v.getLsbD (32 - n) := by
  by_cases h : n = 0 <;> simp [shiftByImm, h]

theorem shiftByImm_lsl_toNat : (shiftByImm .lsl v n c).value.toNat = v.toNat * 2 ^ n % 2 ^ 32 := by
  rw [shiftByImm_lsl_value, BitVec.toNat_shiftLeft, Nat.shiftLeft_eq]

theorem shiftByImm_ror_zero : shiftByImm .ror v 0 c = rrx v c := rfl

theorem shiftByImm_ror_of_ne {n : Nat} (h : n ≠ 0) :
    shiftByImm .ror v n c = ⟨v.rotateRight n, v.getLsbD (n - 1)⟩ := if_neg h

/-- The last bit rotated out of bit 0 is the one that enters at bit 31 (41_shifter_operand.md R106). -/
theorem getLsbD_31_rotateRight {n : Nat} (h : n ≠ 0) (hn : n < 32) :
    (v.rotateRight n).getLsbD 31 = v.getLsbD (n - 1) := by
  have hidx : (31 + n) % 32 = n - 1 := by omega
  rw [getLsbD_rotateRight_word v hn (by decide), hidx]

theorem rrx_carry : (rrx v c).carry = v.getLsbD 0 := rfl

/-- The low 31 bits are those of `v` from bit 1 on; the one above them is the carry. -/
theorem rrx_getLsbD (k : Nat) :
    (rrx v c).value.getLsbD k =
      if k < 31 then (v.extractLsb' 1 31).getLsbD k else (BitVec.ofBool c).getLsbD (k - 31) :=
  BitVec.getLsbD_append

theorem rrx_getLsbD_31 : (rrx v c).value.getLsbD 31 = c := by
  simp only [rrx_getLsbD, Nat.lt_irrefl, if_false, Nat.sub_self, BitVec.getLsbD_ofBool, decide_true, Bool.true_and]

theorem rrx_getLsbD_of_lt {k : Nat} (hk : k < 31) : (rrx v c).value.getLsbD k = v.getLsbD (k + 1) := by
  rw [rrx_getLsbD, if_pos hk, BitVec.getLsbD_extractLsb', decide_eq_true hk, Bool.true_and, Nat.add_comm]

end Amount

/-- Settles O25: LSL is a multiplication by a power of two, ROR of a non-zero amount a rotation whose last bit out is
bit 31 of the result, and ROR of the amount 0 is RRX. -/
theorem leftShiftAndRotateByImmediate : Obligations.LeftShiftAndRotateByImmediate := by
  intro n rm s v l r
  have hcarry : l.carry = if n.toNat = 0 then s.flag .c else v.getLsbD (32 - n.toNat) :=
    shiftByImm_lsl_carry v n.toNat (s.flag .c)
  refine ⟨shiftByImm_lsl_toNat v n.toNat _, fun h => hcarry.trans (if_pos h), fun h => hcarry.trans (if_neg h),
    fun h => ?rotate, fun h => ?rotateExtended⟩
  case rotate =>
    have hr : r = ⟨v.rotateRight n.toNat, v.getLsbD (n.toNat - 1)⟩ := shiftByImm_ror_of_ne v _ h
    rw [hr]
    exact ⟨fun k hk => getLsbD_rotateRight_word v n.isLt hk, rfl, (getLsbD_31_rotateRight v h n.isLt).symm⟩
  case rotateExtended =>
    have hr : r = rrx v (s.flag .c) := by
      calc r = shiftByImm .ror v n.toNat (s.flag .c) := rfl
        _ = rrx v (s.flag .c) := by rw [h, shiftByImm_ror_zero]
    rw [hr]
    exact ⟨rrx_getLsbD_31 v _, fun k hk => rrx_getLsbD_of_lt v _ hk, rrx_carry v _⟩

end Sys2Proof.Machine
end

section
/-! The address resolver: the offset, the moved base as arithmetic modulo 2^32, and one equation per index mode
(42_address_resolver.md R122 to R130), and the obligation about them. -/

namespace Sys2Proof.Machine

/-! ### The offset -/

theorem addressOffset_imm_toNat (n : BitVec 12) (s : State) : (addressOffset (.imm n) s).toNat = n.toNat :=
  BitVec.toNat_setWidth_of_le (by decide)

/-- The offset is shifted as a data-processing operand is, whatever the ignored bit 4 of the word holds. -/
theorem addressOffset_scaled (n : BitVec 5) (y : ShiftType) (b : Bool) (rm : RegNum) (s : State) :
    addressOffset (.scaled n y b rm) s = (shifterOperand (.shiftImm n y rm) s).value := rfl

section Modes

variable {a : LsArgs} (s : State)

/-! ### The moved base -/

theorem movedBase_toNat_of_up (hu : a.u = true) :
    (movedBase a s).toNat = ((s.reg a.rn).toNat + (addressOffset a.offset s).toNat) % 2 ^ 32 := by
  rw [movedBase, if_pos hu, BitVec.toNat_add]

theorem movedBase_toNat_of_down (hu : a.u = false) :
    (movedBase a s).toNat = (2 ^ 32 + (s.reg a.rn).toNat - (addressOffset a.offset s).toNat) % 2 ^ 32 := by
  have hoff : (addressOffset a.offset s).toNat < 2 ^ 32 := BitVec.isLt _
  have hdiff : movedBase a s = s.reg a.rn - addressOffset a.offset s := if_neg (by simp [hu])
  rw [hdiff, BitVec.toNat_sub, Nat.sub_add_comm hoff.le]

/-! ### The index modes -/

theorem resolveAddress_of_postIndex (hp : a.p = false) (hw : a.w = false) :
    resolveAddress a s = .access (s.reg a.rn) (s.setReg a.rn (movedBase a s)) := by
  simp only [resolveAddress, hp, hw]

theorem resolveAddress_of_preIndex (hp : a.p = true) (hw : a.w = true) :
    resolveAddress a s = .access (movedBase a s) (s.setReg a.rn (movedBase a s)) := by
  simp only [resolveAddress, hp, hw]

theorem resolveAddress_of_offsetMode (hp : a.p = true) (hw : a.w = false) :
    resolveAddress a s = .access (movedBase a s) s := by
  simp only [resolveAddress, hp, hw]

theorem resolveAddress_of_userMode (hp : a.p = false) (hw : a.w = true) : resolveAddress a s = .unsupported := by
  simp only [resolveAddress, hp, hw]

end Modes

/-- Settles O29: the offset by its two forms, the moved base by the two values of U, and the answer by the four index
modes of P and W. -/
theorem addressResolverFollowsIndexMode : Obligations.AddressResolverFollowsIndexMode := by
  intro a s
  refine ⟨fun n h => ?immediate, fun n y b rm h => ?scaled, movedBase_toNat_of_up s, movedBase_toNat_of_down s,
    resolveAddress_of_postIndex s, resolveAddress_of_preIndex s, resolveAddress_of_offsetMode s,
    resolveAddress_of_userMode s⟩
  case immediate => rw [h, addressOffset_imm_toNat]
  case scaled => rw [h, addressOffset_scaled]

end Sys2Proof.Machine
end

section
/-! SWI (43_swi.md R140, R141): what it does in `exec`, the two ways its cycle can end, the halt and the mere advance of
the program counter, and the obligation about it. -/

namespace Sys2Proof.Machine

open Sys2Proof.Claims

/-! ### The two ends of a cycle without other effects -/

/-- `raise Halt` sets the halted flag and nothing else (60_exceptions.md R231). -/
theorem State.raiseHalt_haltOf (s : State) : HaltOf s s.raiseHalt :=
  ⟨s.raiseHalt_halted, s.raiseHalt_reg, s.raiseHalt_cpsr, s.raiseHalt_params, fun _ => rfl⟩

/-- A cycle that starts running and ends halted reports HALT (48_cycle_engine.md R209). -/
theorem reportOf_of_halting {s t : State} (hs : s.halted = false) (ht : t.halted = true) : reportOf s t = .halt := by
  simp [reportOf, hs, ht]

/-- The program counter of a halting step does not advance (48_cycle_engine.md R206). -/
theorem step_of_raiseHalt {s : State} {w : Word} (h : s.halted = false) (hf : fetch s = some w)
    (hc : conditionPassed (decodeWord w).cond s = true) (he : exec (decodeWord w) s = .next s.raiseHalt) :
    step s = .next s.raiseHalt := by
  rw [step_of_passed h hf hc, he, commit, State.advancePc_of_halted _ s.raiseHalt_halted]

theorem cpuCycle_of_raiseHalt {s : State} (h : s.halted = false) (hstep : step s = .next s.raiseHalt) :
    hostStep .cpuCycle ⟨s, false⟩ = (.report .halt, ⟨s.raiseHalt, false⟩) :=
  calc hostStep .cpuCycle ⟨s, false⟩ = (.report (reportOf s s.raiseHalt), ⟨s.raiseHalt, false⟩) :=
        cpuCycle_of_next hstep
    _ = (.report .halt, ⟨s.raiseHalt, false⟩) := by rw [reportOf_of_halting h s.raiseHalt_halted]

theorem cpuCycle_of_advancePc {s : State} (h : s.halted = false) (hstep : step s = .next s.advancePc) :
    hostStep .cpuCycle ⟨s, false⟩ = (.report .ok, ⟨s.advancePc, false⟩) :=
  calc hostStep .cpuCycle ⟨s, false⟩ = (.report (reportOf s s.advancePc), ⟨s.advancePc, false⟩) :=
        cpuCycle_of_next hstep
    _ = (.report .ok, ⟨s.advancePc, false⟩) := by rw [reportOf_of_running h (s.advancePc_halted.trans h)]

/-! ### The instruction and its word -/

theorem exec_swi_of_haltImm {a : SwiArgs} {s : State} (h : a.imm24 = s.params.haltImm) :
    exec (.swi a) s = .next s.raiseHalt := if_pos h

theorem exec_swi_of_ne_haltImm {a : SwiArgs} {s : State} (h : a.imm24 ≠ s.params.haltImm) :
    exec (.swi a) s = .next s := if_neg h

/-- The SWI pattern is the first of the classes (30_encoding.md R63). -/
theorem decodeWord_of_swi {w : Word} (h : w.extractLsb' 24 4 = 0b1111#4) : decodeWord w = .swi (decodeSwiArgs w) :=
  if_pos h

section SwiWord

variable {s : State} {w : Word} (h : s.halted = false) (hf : fetch s = some w) (hw : w.extractLsb' 24 4 = 0b1111#4)
include h hf hw

theorem step_swi_halts (hc : conditionPassed (condOf w) s = true) (hi : w.extractLsb' 0 24 = s.params.haltImm) :
    step s = .next s.raiseHalt := by
  have hd : decodeWord w = .swi (decodeSwiArgs w) := decodeWord_of_swi hw
  have hpassed : conditionPassed (decodeWord w).cond s = true := by rwa [hd]
  have he : exec (decodeWord w) s = .next s.raiseHalt := by rw [hd, exec_swi_of_haltImm hi]
  exact step_of_raiseHalt h hf hpassed he

/-- A failed condition and another immediate than HALT_IMM come to the same. -/
theorem step_swi_advances (hn : conditionPassed (condOf w) s = false ∨ w.extractLsb' 0 24 ≠ s.params.haltImm) :
    step s = .next s.advancePc := by
  have hd : decodeWord w = .swi (decodeSwiArgs w) := decodeWord_of_swi hw
  rcases hc : conditionPassed (decodeWord w).cond s with _ | _
  case false => exact step_of_failed h hf hc
  case true =>
    have hpassed : conditionPassed (condOf w) s = true := by rwa [hd] at hc
    have hi : w.extractLsb' 0 24 ≠ s.params.haltImm := hn.resolve_left (by simp [hpassed])
    have he : exec (.swi (decodeSwiArgs w)) s = .next s := exec_swi_of_ne_haltImm hi
    rw [step_of_passed h hf hc, hd, he, commit]

end SwiWord

/-- Settles O40: with HALT_IMM the executor raises the halt, and the cycle keeps it as it is; otherwise, whether the
condition or the immediate is the reason, the cycle is the advance of the program counter. -/
theorem softwareInterrupt : Obligations.SoftwareInterrupt := by
  refine ⟨fun a s => ⟨fun hi => ?executor, exec_swi_of_ne_haltImm⟩,
    fun s w h hf hw => ⟨fun hc hi => ?halts, fun hn => ?advances⟩⟩
  case executor => exact ⟨s.raiseHalt, exec_swi_of_haltImm hi, s.raiseHalt_haltOf⟩
  case halts =>
    have hstep : step s = .next s.raiseHalt := step_swi_halts h hf hw hc hi
    exact ⟨s.raiseHalt, s.raiseHalt_haltOf, cpuCycle_of_raiseHalt h hstep⟩
  case advances =>
    have hstep : step s = .next s.advancePc := step_swi_advances h hf hw hn
    exact ⟨s.advancePc, State.advancePc_reg_pc h, s.advancePc_frame, cpuCycle_of_advancePc h hstep⟩

end Sys2Proof.Machine
end

section
/-! The unsupported load/store form, P = 0 and W = 1 (46_load_store.md R160): it halts, as the table's row and as any
load or store with these bits; a load/store word with these bits decodes to the row; and the obligation about it. -/

namespace Sys2Proof.Machine

open Sys2Proof.Claims

/-! ### The instruction -/

@[simp] theorem exec_lsUnsupported (a : LsUnsupportedArgs) (s : State) :
    exec (.lsUnsupported a) s = .next s.raiseHalt := rfl

section UserMode

variable {a : LsArgs} (s : State) (hp : a.p = false) (hw : a.w = true)
include hp hw

theorem exec_ldr_of_userMode : exec (.ldr a) s = .next s.raiseHalt := loadStore_of_unsupported hp hw _

theorem exec_ldrb_of_userMode : exec (.ldrb a) s = .next s.raiseHalt := loadStore_of_unsupported hp hw _

theorem exec_str_of_userMode : exec (.str a) s = .next s.raiseHalt := loadStore_of_unsupported hp hw _

theorem exec_strb_of_userMode : exec (.strb a) s = .next s.raiseHalt := loadStore_of_unsupported hp hw _

end UserMode

/-! ### Its word -/

/-- Bits 27:26 tell a load/store word from every class decoded before it (30_encoding.md R63). -/
theorem decodeWord_of_loadStore {w : Word} (h : w.extractLsb' 26 2 = 0b01#2) : decodeWord w = decodeLoadStore w := by
  obtain ⟨h27, h26⟩ := (loadStorePattern_iff w).1 h
  have hswi : ¬ w.extractLsb' 24 4 = 0b1111#4 := by
    simp only [swiPattern_iff, h27, Bool.false_eq_true, false_and, not_false_eq_true]
  have hmul : ¬ (w.extractLsb' 22 6 = 0b000000#6 ∧ w.extractLsb' 4 4 = 0b1001#4) := by
    simp only [mulUpperPattern_iff, h26, Bool.true_eq_false, false_and, and_false, not_false_eq_true]
  have hbranch : ¬ w.extractLsb' 25 3 = 0b101#3 := by
    simp only [branchPattern_iff, h27, Bool.false_eq_true, false_and, not_false_eq_true]
  rw [decodeWord, if_neg hswi, if_neg hmul, if_neg hbranch, if_pos h]

/-- P and W are read before L and B (30_encoding.md R73). -/
theorem decodeLoadStore_of_userMode {w : Word} (hp : w.getLsbD 24 = false) (hw : w.getLsbD 21 = true) :
    decodeLoadStore w = .lsUnsupported (decodeLsUnsupportedArgs w) :=
  if_pos (by rw [hp, hw]; rfl)

theorem decodeWord_of_lsUnsupported {w : Word} (h : w.extractLsb' 26 2 = 0b01#2) (hp : w.getLsbD 24 = false)
    (hw : w.getLsbD 21 = true) : decodeWord w = .lsUnsupported (decodeLsUnsupportedArgs w) :=
  (decodeWord_of_loadStore h).trans (decodeLoadStore_of_userMode hp hw)

/-- Settles O41: the executor's row and the four loads and stores with P = 0 and W = 1 raise the halt; the word decodes
to the row, so its cycle keeps the halt as it is, or is the advance of the program counter where the condition fails. -/
theorem unsupportedLoadStoreHalts : Obligations.UnsupportedLoadStoreHalts := by
  refine ⟨fun a s => ?row, fun a s hp hw => ?loadsAndStores,
    fun s w h hf hcl hp hw => ⟨fun hc => ?halts, fun hc => ?advances⟩⟩
  case row => exact ⟨s.raiseHalt, exec_lsUnsupported a s, s.raiseHalt_haltOf⟩
  case loadsAndStores =>
    exact ⟨s.raiseHalt, s.raiseHalt_haltOf, exec_ldr_of_userMode s hp hw, exec_ldrb_of_userMode s hp hw,
      exec_str_of_userMode s hp hw, exec_strb_of_userMode s hp hw⟩
  case halts =>
    have hd : decodeWord w = .lsUnsupported (decodeLsUnsupportedArgs w) := decodeWord_of_lsUnsupported hcl hp hw
    have he : exec (decodeWord w) s = .next s.raiseHalt := by rw [hd, exec_lsUnsupported]
    have hstep : step s = .next s.raiseHalt := step_of_raiseHalt h hf hc he
    exact ⟨s.raiseHalt, s.raiseHalt_haltOf, cpuCycle_of_raiseHalt h hstep⟩
  case advances =>
    have hstep : step s = .next s.advancePc := step_of_failed h hf hc
    exact ⟨s.advancePc, State.advancePc_reg_pc h, s.advancePc_frame, cpuCycle_of_advancePc h hstep⟩

end Sys2Proof.Machine
end

section
/-! What the data-processing instructions share (47_data_processing.md R165 to R169): the opcode of their words, what
their writes leave unchanged, and the flags N and Z. -/

namespace Sys2Proof.Machine

open Sys2Proof.Claims

/-! ### The opcode of a word (30_encoding.md R72, R73) -/

/-- The mask of the data-processing rows keeps the class, bits 27:26, and the opcode, bits 24:21. -/
theorem and_dpMask (w : Word) :
    w &&& (0x0DE00000 : Word) =
      (w.extractLsb' 26 2).zeroExtend 32 <<< 26 ||| (w.extractLsb' 21 4).zeroExtend 32 <<< 21 := by
  ext k hk
  interval_cases k <;> simp

/-- Under the mask the word of a data-processing instruction is its opcode. -/
theorem encodeDp_and_dpMask (op : BitVec 4) (a : DpArgs) :
    encodeDp op a &&& (0x0DE00000 : Word) = op.zeroExtend 32 <<< 21 := by
  obtain ⟨-, hclass, -, hop, -⟩ := encodeDp_fields op a
  rw [and_dpMask, hclass, hop]
  exact BitVec.zero_or

/-- The row of the opcode table, in the words of the obligations. -/
theorem matches_of_encodeDp (op : BitVec 4) {i : Instr} {a : DpArgs} (h : encode i = encodeDp op a) :
    Matches i 0x0DE00000 (op.zeroExtend 32 <<< 21) := by
  rw [Matches, h, encodeDp_and_dpMask]

/-! ### N and Z -/

theorem nzOf_of_flags {t : State} {v : Word} (hn : t.flag .n = v.getLsbD 31) (hz : t.flag .z = (v == 0#32)) :
    NZOf t v := by
  refine ⟨hn, ?_⟩
  calc t.flag .z = true ↔ v = 0#32 := by rw [hz, beq_iff_eq]
    _ ↔ v.toNat = 0 := BitVec.toNat_inj.symm

section Writes

variable (a : DpArgs) (s : State) (r : Word) (c : Bool) (sum : Sum)

/-! ### The logical write (R169) -/

theorem logicalWrite_reg_self : (logicalWrite a r c s).reg a.rd = r := by rw [logicalWrite_reg, if_pos rfl]

theorem logicalWrite_flag_of_s (h : a.s = true) (g : Flag) :
    (logicalWrite a r c s).flag g = (s.setLogicFlags r c).flag g := by rw [logicalWrite_flag, if_pos h]

theorem logicalWrite_nzOf (h : a.s = true) : NZOf (logicalWrite a r c s) r :=
  nzOf_of_flags (by rw [logicalWrite_flag_of_s a s r c h, State.setLogicFlags_flag])
    (by rw [logicalWrite_flag_of_s a s r c h, State.setLogicFlags_flag])

theorem logicalWrite_claimsFrame : Frame s (logicalWrite a r c s) [a.rd] (if a.s then [.n, .z, .c] else []) := by
  obtain ⟨hlow, hhalted, hmem, hparams, -⟩ := logicalWrite_frame s r c a
  refine ⟨fun q hq => ?registers, fun g hg => ?flags, hlow, hhalted, hparams, State.memRead8_congr hparams hmem⟩
  case registers => rw [logicalWrite_reg, if_neg (mt List.mem_singleton.2 hq)]
  case flags =>
    rw [logicalWrite_flag]
    cases hs : a.s with
    | false => rfl
    | true =>
      have hv : g = .v := by
        rw [hs] at hg
        cases g with
        | v => rfl
        | n | z | c => exact absurd (by decide) hg
      rw [hv, if_pos rfl, State.setLogicFlags_flag]

/-! ### The arithmetic write (R167) -/

theorem arithmeticWrite_reg_self : (arithmeticWrite a sum s).reg a.rd = sum.result := by
  rw [arithmeticWrite_reg, if_pos rfl]

theorem arithmeticWrite_flag_of_s (h : a.s = true) (g : Flag) :
    (arithmeticWrite a sum s).flag g = (s.setArithFlags sum).flag g := by rw [arithmeticWrite_flag, if_pos h]

theorem arithmeticWrite_nzOf (h : a.s = true) : NZOf (arithmeticWrite a sum s) sum.result :=
  nzOf_of_flags (by rw [arithmeticWrite_flag_of_s a s sum h, State.setArithFlags_flag])
    (by rw [arithmeticWrite_flag_of_s a s sum h, State.setArithFlags_flag])

theorem arithmeticWrite_claimsFrame :
    Frame s (arithmeticWrite a sum s) [a.rd] (if a.s then [.n, .z, .c, .v] else []) := by
  obtain ⟨hlow, hhalted, hmem, hparams, -⟩ := arithmeticWrite_frame s sum a
  refine ⟨fun q hq => ?registers, fun g hg => ?flags, hlow, hhalted, hparams, State.memRead8_congr hparams hmem⟩
  case registers => rw [arithmeticWrite_reg, if_neg (mt List.mem_singleton.2 hq)]
  case flags =>
    rw [arithmeticWrite_flag]
    cases hs : a.s with
    | false => rfl
    | true =>
      rw [hs] at hg
      exact absurd (by cases g <;> decide) hg

end Writes

end Sys2Proof.Machine
end

section
/-! AND, EOR, ORR, MOV, BIC and MVN (47_data_processing.md R170, R171, R182 to R185), and the obligation about them. -/

namespace Sys2Proof.Machine

open Sys2Proof.Claims

/-- A logical instruction is known by the bits of its result: the write has the rest (47_data_processing.md R169). -/
theorem logicalOutcome_of_bits {a : DpArgs} {s : State} {r : Word} {f : Bool → Bool → Bool}
    (hbits : ∀ k < 32, r.getLsbD k = f ((s.reg a.rn).getLsbD k) ((shifterOperand a.op2 s).value.getLsbD k)) :
    LogicalOutcome (.next (logicalWrite a r (shifterOperand a.op2 s).carry s)) a s f := by
  refine ⟨_, r, rfl, hbits, logicalWrite_reg_self a s r _, fun h => ⟨logicalWrite_nzOf a s r _ h, ?carry⟩,
    logicalWrite_claimsFrame a s r _⟩
  case carry => rw [logicalWrite_flag_of_s a s r _ h, State.setLogicFlags_flag]

variable (a : DpArgs) (s : State)

theorem exec_and_outcome : LogicalOutcome (exec (.and a) s) a s (fun x y => x && y) :=
  logicalOutcome_of_bits fun _ _ => BitVec.getLsbD_and

theorem exec_eor_outcome : LogicalOutcome (exec (.eor a) s) a s (fun x y => x != y) :=
  logicalOutcome_of_bits fun _ _ => BitVec.getLsbD_xor

theorem exec_orr_outcome : LogicalOutcome (exec (.orr a) s) a s (fun x y => x || y) :=
  logicalOutcome_of_bits fun _ _ => BitVec.getLsbD_or

theorem exec_mov_outcome : LogicalOutcome (exec (.mov a) s) a s (fun _ y => y) :=
  logicalOutcome_of_bits fun _ _ => rfl

theorem exec_bic_outcome : LogicalOutcome (exec (.bic a) s) a s (fun x y => x && !y) :=
  logicalOutcome_of_bits fun k hk => by rw [BitVec.getLsbD_and, BitVec.getLsbD_not, decide_eq_true hk, Bool.true_and]

theorem exec_mvn_outcome : LogicalOutcome (exec (.mvn a) s) a s (fun _ y => !y) :=
  logicalOutcome_of_bits fun k hk => by rw [BitVec.getLsbD_not, decide_eq_true hk, Bool.true_and]

/-- Settles O30: the words by the opcode under the table's mask, the outcomes by the bits of the result. -/
theorem logicalInstructions : Obligations.LogicalInstructions := fun a s =>
  ⟨matches_of_encodeDp 0b0000#4 rfl, matches_of_encodeDp 0b0001#4 rfl, matches_of_encodeDp 0b1100#4 rfl,
    matches_of_encodeDp 0b1101#4 rfl, matches_of_encodeDp 0b1110#4 rfl, matches_of_encodeDp 0b1111#4 rfl,
    exec_and_outcome a s, exec_eor_outcome a s, exec_orr_outcome a s, exec_mov_outcome a s, exec_bic_outcome a s,
    exec_mvn_outcome a s⟩

end Sys2Proof.Machine
end

section
/-! The adder as arithmetic in the naturals and in the integers (47_data_processing.md R166), and what the instructions
that write its sum do with it (R167). -/

namespace Sys2Proof.Machine

open Sys2Proof.Claims

/-! ### Signed range -/

theorem bmod_word_eq_self_iff (x : Int) : x.bmod (2 ^ 32) = x ↔ ¬ SignedOverflow x := by
  rw [Int.bmod_def, SignedOverflow]
  split <;> omega

theorem toInt_not_word (b : Word) : (~~~b).toInt = -b.toInt - 1 := by
  simp only [BitVec.toInt_eq_toNat_cond, BitVec.toNat_not]
  split <;> split <;> omega

/-! ### The adder -/

/-- The sum is `u` modulo 2^32, with a carry exactly if `carry`, and overflows exactly if the integer `x` is out of
range. -/
def Sum.Computes (sum : Sum) (u : Nat) (carry : Prop) (x : Int) : Prop :=
  sum.result.toNat = u % 2 ^ 32 ∧ (sum.carry = true ↔ carry) ∧ (sum.overflow = true ↔ SignedOverflow x)

section Adder

variable (a b : Word) (c : Bool)

/-- Read as a signed number, the result is the integer sum brought into range: the two sums agree modulo 2^32. -/
theorem addWithCarry_result_toInt :
    (addWithCarry a b c).result.toInt = (a.toInt + b.toInt + (c.toNat : Int)).bmod (2 ^ 32) := by
  calc (addWithCarry a b c).result.toInt
      = ((a.toNat : Int) + ((b.toNat : Int) + (c.toNat : Int))).bmod (2 ^ 32) := by
        rw [← add_assoc]
        exact BitVec.toInt_ofNat' _
    _ = (a.toInt + b.toInt + (c.toNat : Int)).bmod (2 ^ 32) := by
        rw [BitVec.toInt_eq_toNat_bmod a, BitVec.toInt_eq_toNat_bmod b, add_assoc, Int.bmod_add_bmod,
          add_left_comm _ ((b.toNat : Int).bmod _), Int.bmod_add_bmod, add_left_comm]

theorem addWithCarry_overflow_iff :
    (addWithCarry a b c).overflow = true ↔ SignedOverflow (a.toInt + b.toInt + (c.toNat : Int)) := by
  have hdef : (addWithCarry a b c).overflow =
      decide (a.toInt + b.toInt + (c.toNat : Int) ≠ (addWithCarry a b c).result.toInt) := rfl
  rw [hdef, decide_eq_true_iff, addWithCarry_result_toInt, ne_comm, Ne, bmod_word_eq_self_iff, not_not]

theorem addWithCarry_computes :
    (addWithCarry a b c).Computes (a.toNat + b.toNat + c.toNat) (2 ^ 32 ≤ a.toNat + b.toNat + c.toNat)
      (a.toInt + b.toInt + (c.toNat : Int)) :=
  ⟨BitVec.toNat_ofNat _ _, decide_eq_true_iff, addWithCarry_overflow_iff a b c⟩

/-- `a + NOT b + c` is `a - b`, less one more where `c` is clear; the carry is NOT borrow (R172, R187). -/
theorem addWithCarry_not_computes :
    (addWithCarry a (~~~b) c).Computes (2 ^ 32 + a.toNat - b.toNat - (1 - c.toNat))
      (b.toNat + (1 - c.toNat) ≤ a.toNat) (a.toInt - b.toInt - ((1 - c.toNat : Nat) : Int)) := by
  have hb : b.toNat < 2 ^ 32 := b.isLt
  have hc : c.toNat ≤ 1 := c.toNat_le
  have hnot : (~~~b).toNat = 2 ^ 32 - 1 - b.toNat := BitVec.toNat_not
  obtain ⟨hresult, hcarry, hoverflow⟩ := addWithCarry_computes a (~~~b) c
  refine ⟨hresult.trans (congrArg (· % 2 ^ 32) ?natural), hcarry.trans ?borrow, ?signed⟩
  case natural => omega
  case borrow => omega
  case signed =>
    have hx : a.toInt + (~~~b).toInt + (c.toNat : Int) = a.toInt - b.toInt - ((1 - c.toNat : Nat) : Int) := by
      rw [toInt_not_word]
      omega
    rwa [hx] at hoverflow

end Adder

/-! ### The instructions that write a sum -/

/-- An arithmetic instruction is known by what its sum computes: the write has the rest (R167). -/
theorem arithmeticOutcome_of_computes {a : DpArgs} {s : State} {sum : Sum} {u : Nat} {carry : Prop} {x : Int}
    (h : sum.Computes u carry x) : ArithmeticOutcome (.next (arithmeticWrite a sum s)) a s u carry x := by
  obtain ⟨hresult, hcarry, hoverflow⟩ := h
  refine ⟨_, sum.result, rfl, hresult, arithmeticWrite_reg_self a s sum,
    fun hs => ⟨arithmeticWrite_nzOf a s sum hs, ?carry, ?overflow⟩, arithmeticWrite_claimsFrame a s sum⟩
  case carry => rwa [arithmeticWrite_flag_of_s a s sum hs, State.setArithFlags_flag]
  case overflow => rwa [arithmeticWrite_flag_of_s a s sum hs, State.setArithFlags_flag]

end Sys2Proof.Machine
end

section
/-! ADD, ADC, SUB and RSB (47_data_processing.md R172 to R175), and the obligations about them. -/

namespace Sys2Proof.Machine

open Sys2Proof.Claims

variable (a b : Word)

/-- Without a carry-in (R174). -/
theorem addWithCarry_false_computes :
    (addWithCarry a b false).Computes (a.toNat + b.toNat) (2 ^ 32 ≤ a.toNat + b.toNat) (a.toInt + b.toInt) := by
  simpa using addWithCarry_computes a b false

/-- Subtraction without a borrow-in (R172). -/
theorem addWithCarry_not_true_computes :
    (addWithCarry a (~~~b) true).Computes (2 ^ 32 + a.toNat - b.toNat) (b.toNat ≤ a.toNat) (a.toInt - b.toInt) := by
  simpa using addWithCarry_not_computes a b true

/-- Settles O32: the sums of ADD, without a carry-in, and of ADC, whose carry-in is C. -/
theorem additionInstructions : Obligations.AdditionInstructions := fun a s =>
  ⟨matches_of_encodeDp 0b0100#4 rfl, matches_of_encodeDp 0b0101#4 rfl,
    arithmeticOutcome_of_computes (addWithCarry_false_computes (s.reg a.rn) (shifterOperand a.op2 s).value),
    arithmeticOutcome_of_computes (addWithCarry_computes (s.reg a.rn) (shifterOperand a.op2 s).value (s.flag .c))⟩

/-- Settles O33: SUB and RSB are one subtraction, `a + NOT b + 1`, with the operands exchanged. -/
theorem subtractionInstructions : Obligations.SubtractionInstructions := fun a s =>
  ⟨matches_of_encodeDp 0b0010#4 rfl, matches_of_encodeDp 0b0011#4 rfl,
    arithmeticOutcome_of_computes (addWithCarry_not_true_computes (s.reg a.rn) (shifterOperand a.op2 s).value),
    arithmeticOutcome_of_computes (addWithCarry_not_true_computes (shifterOperand a.op2 s).value (s.reg a.rn))⟩

end Sys2Proof.Machine
end

section
/-! The cycle engine (48_cycle_engine.md R201, R205, R206): the step in the terms of the decoded bytes, the failed
condition, the halted core and the host operations that keep it halted; and the obligations about them. -/

namespace Sys2Proof.Machine

open Sys2Proof.Claims

/-! ### The decoded instruction -/

theorem decodeBytes_word {b0 b1 b2 b3 : Byte} {i : Instr} (h : decodeBytes [b0, b1, b2, b3] = .ok (i, [])) :
    decodeWord (wordOfBytes b0 b1 b2 b3) = i := by
  cases h
  rfl

/-- The advance in the terms of x15 and 4 (48_cycle_engine.md R206). -/
theorem State.advancePc_eq_setReg {s : State} (h : s.halted = false) :
    s.advancePc = s.setReg 15 (s.reg 15 + 4#32) := State.advancePc_of_running s h

/-- Settles O13: the bytes at the program counter are the fetched word, so the step is the gate, the executor and the
commit of the decoded instruction. -/
theorem stepRunsDecodedInstruction : Obligations.StepRunsDecodedInstruction := by
  intro s b0 b1 b2 b3 i hs hread hdecode
  have hf : fetch s = some (wordOfBytes b0 b1 b2 b3) := hread
  obtain rfl : decodeWord (wordOfBytes b0 b1 b2 b3) = i := decodeBytes_word hdecode
  refine ⟨fun hc => ?failed, fun hc => ⟨fun t he ht => ?runsOn, fun t he ht => ?halts, fun r he => ?fatal⟩⟩
  case failed => rw [step_of_failed hs hf hc, State.advancePc_eq_setReg hs]
  case runsOn => rw [step_of_passed hs hf hc, he, commit, State.advancePc_eq_setReg ht]
  case halts => rw [step_of_passed hs hf hc, he, commit, State.advancePc_of_halted t ht]
  case fatal => rw [step_of_passed hs hf hc, he, commit]

/-- Settles O18: a failed condition leaves the advance of the program counter as the whole step. -/
theorem failedConditionOnlyAdvances : Obligations.FailedConditionOnlyAdvances := by
  intro s w hs hf hc
  have hstep : step s = .next s.advancePc := step_of_failed hs hf hc
  exact ⟨s.advancePc, hstep, State.advancePc_reg_pc hs, s.advancePc_frame, cpuCycle_of_advancePc hs hstep⟩

/-! ### What the host operations do to the core -/

section HostCore

variable (h : Session) (a v : Word)

theorem hostStep_loadProgram_core (words : List Word) :
    (hostStep (.loadProgram words) h).2.core = (loadWords words 0 h.core).1 := by
  rcases hl : loadWords words 0 h.core with ⟨t, _ | addr⟩ <;> simp only [hostStep, hl]

theorem hostStep_memRead32_core : (hostStep (.memRead32 a) h).2.core = h.core := by
  rcases hm : h.core.memRead32 a with _ | w <;> simp only [hostStep, hm, hostFatal]

theorem hostStep_memRead8_core : (hostStep (.memRead8 a) h).2.core = h.core := by
  rcases hm : h.core.memRead8 a with _ | b <;> simp only [hostStep, hm, hostFatal]

theorem hostStep_memWrite32_core :
    (hostStep (.memWrite32 a v) h).2.core = (h.core.memWrite32 a v).getD h.core := by
  rcases hm : h.core.memWrite32 a v with _ | t <;> simp only [hostStep, hm, hostFatal, Option.getD]

theorem hostStep_memWrite8_core :
    (hostStep (.memWrite8 a v) h).2.core = (h.core.memWrite8 a (v.extractLsb' 0 8)).getD h.core := by
  rcases hm : h.core.memWrite8 a (v.extractLsb' 0 8) with _ | t <;> simp only [hostStep, hm, hostFatal, Option.getD]

end HostCore

/-! ### The halted flag -/

section Halted

variable (s : State) (a : Word)

theorem loadWords_halted (words : List Word) (i : Nat) : (loadWords words i s).1.halted = s.halted := by
  rw [loadWords_keeps, State.setMem_halted]

/-- The flag survives a store of the host, whether it succeeds or is Fatal. -/
theorem State.memWrite32_getD_halted (v : Word) : ((s.memWrite32 a v).getD s).halted = s.halted := by
  rcases hm : s.memWrite32 a v with _ | t
  · rfl
  · obtain ⟨-, rfl⟩ := State.memWrite32_eq_some.1 hm
    rfl

theorem State.memWrite8_getD_halted (b : Byte) : ((s.memWrite8 a b).getD s).halted = s.halted := by
  rcases hm : s.memWrite8 a b with _ | t
  · rfl
  · obtain ⟨-, rfl⟩ := State.memWrite8_eq_some.1 hm
    rfl

end Halted

/-- The cycle of a halted core changes nothing in the session, stuck or not. -/
theorem cpuCycle_session_of_halted {h : Session} (hh : h.core.halted = true) : (cpuCycle h).2 = h := by
  obtain ⟨s, stuck⟩ := h
  cases stuck with
  | true => rfl
  | false => rw [cpuCycle_of_next (step_of_halted hh)]

/-- A cycle that starts halted reports HALTED (48_cycle_engine.md R209). -/
theorem reportOf_of_halted {s : State} (t : State) (hs : s.halted = true) : reportOf s t = .halted := if_pos hs

theorem cpuCycle_of_halted {s : State} (hs : s.halted = true) :
    hostStep .cpuCycle ⟨s, false⟩ = (.report .halted, ⟨s, false⟩) :=
  calc hostStep .cpuCycle ⟨s, false⟩ = (.report (reportOf s s), ⟨s, false⟩) := cpuCycle_of_next (step_of_halted hs)
    _ = (.report .halted, ⟨s, false⟩) := by rw [reportOf_of_halted s hs]

/-- Only the resets write the halted flag of a halted core: the memory operations and `set_reg` write other fields, and
the cycle does nothing (48_cycle_engine.md R201). -/
theorem hostStep_halted_of_not_reset {op : HostOp} {h : Session} (hh : h.core.halted = true) (hi : op ≠ .initialise)
    (hr : op ≠ .resetCpu) : (hostStep op h).2.core.halted = true := by
  cases op with
  | initialise => exact absurd rfl hi
  | resetCpu => exact absurd rfl hr
  | loadProgram words => rw [hostStep_loadProgram_core, loadWords_halted, hh]
  | memRead32 a => rw [hostStep_memRead32_core, hh]
  | memWrite32 a v => rw [hostStep_memWrite32_core, State.memWrite32_getD_halted, hh]
  | memRead8 a => rw [hostStep_memRead8_core, hh]
  | memWrite8 a v => rw [hostStep_memWrite8_core, State.memWrite8_getD_halted, hh]
  | cpuCycle =>
    have hkept : (hostStep .cpuCycle h).2 = h := cpuCycle_session_of_halted hh
    rw [hkept, hh]
  | getCpuState => exact hh
  | setReg r v => exact hh

/-- Settles O14: a halted core steps to itself, and every host operation but the two resets keeps the halted flag. -/
theorem haltedCoreOnlyLeavesByReset : Obligations.HaltedCoreOnlyLeavesByReset :=
  ⟨fun _ hs => ⟨step_of_halted hs, cpuCycle_of_halted hs⟩, fun _ _ hh hi hr => hostStep_halted_of_not_reset hh hi hr⟩

end Sys2Proof.Machine
end

section
/-! The host's register write (50_host_interface.md R224): `set_reg` and its frame, and the obligation about it. -/

namespace Sys2Proof.Machine

open Sys2Proof.Claims

theorem hostStep_setReg (h : Session) (r : RegNum) (v : Word) :
    hostStep (.setReg r v) h = (.done, { h with core := h.core.setReg r v }) := rfl

/-- A register write changes its one register: a byte of memory is read through the memory and the parameters, and it
keeps both. -/
theorem State.setReg_frame (s : State) (r : RegNum) (v : Word) : Frame s (s.setReg r v) [r] [] :=
  ⟨fun q hq => s.reg_setReg_of_ne r q v (mt List.mem_singleton.2 hq), fun f _ => s.setReg_flag r v f,
    congrArg _ (s.setReg_cpsr r v), s.setReg_halted r v, s.setReg_params r v,
    State.memRead8_congr (s.setReg_params r v) (s.setReg_mem r v)⟩

/-- Settles O53: `set_reg` is the one register write of the core, with no advance of the program counter after it, for
register 15 too. -/
theorem setRegWritesOneRegister : Obligations.SetRegWritesOneRegister := fun h r v =>
  ⟨h.core.setReg r v, hostStep_setReg h r v, h.core.reg_setReg_self r v, h.core.setReg_frame r v⟩

end Sys2Proof.Machine
end

section
/-! The decoder answers well-formed instructions only (30_encoding.md R63, R64): a word that decodes as a load or store
is of a supported form, one that decodes as AND or EOR is no multiply word, and one of no class has the bits of none. -/

namespace Sys2Proof

/-- P = 0 and W = 1 are taken out before L and B are read (30_encoding.md R73). -/
theorem decodeLoadStore_wf (w : Word) : (decodeLoadStore w).wf = true := by
  by_cases hu : (!w.getLsbD 24 && w.getLsbD 21) = true
  · rw [decodeLoadStore, if_pos hu]
    rfl
  · have hs : (decodeLsArgs w).supported = true := by
      simpa [decodeLsArgs, LsArgs.supported, or_iff_not_imp_left] using hu
    rw [decodeLoadStore, if_neg hu]
    split <;> exact hs

theorem Operand2.eq_shiftReg_of_looksLikeMultiply {o : Operand2} (h : o.looksLikeMultiply = true) :
    ∃ rs rm, o = .shiftReg rs true .lsl rm := by
  unfold looksLikeMultiply at h
  split at h
  · exact ⟨_, _, rfl⟩
  · cases h

/-- Only bits 7:4 of a multiply word give an operand 2 that looks like one (30_encoding.md R66, R70). -/
theorem bits_of_decodeOperand2_looksLikeMultiply {w : Word} (h : (decodeOperand2 w).looksLikeMultiply = true) :
    w.getLsbD 25 = false ∧ w.extractLsb' 4 4 = 0b1001#4 := by
  obtain ⟨rs, rm, ho⟩ := Operand2.eq_shiftReg_of_looksLikeMultiply h
  unfold decodeOperand2 at ho
  split_ifs at ho with h25 h4
  injection ho with _ h7 ht _
  have h65 : w.extractLsb' 5 2 = 0b00#2 := by rw [← code_shiftTypeOf, ht]; rfl
  obtain ⟨h6, h5⟩ : w.getLsbD 6 = false ∧ w.getLsbD 5 = false := by simpa [eq_00_iff] using h65
  exact ⟨Bool.eq_false_iff.2 h25, (mulLowerPattern_iff w).2 ⟨h7, h6, h5, h4⟩⟩

/-- Of the sixteen opcodes AND and EOR alone share words with the multiplies (30_encoding.md R63). -/
theorem dpInstr_wf {op : BitVec 4} {a : DpArgs} (h : op.toNat < 2 → a.op2.looksLikeMultiply = false) :
    (dpInstr op a).wf = true := by
  have hmul (hop : op.toNat < 2) : (!a.op2.looksLikeMultiply) = true := by rw [h hop]; rfl
  unfold dpInstr
  split
  case h_1 | h_2 => exact hmul (by omega)
  all_goals rfl

/-- A data-processing word that is no multiply decodes to a well-formed instruction (30_encoding.md R63). -/
theorem dpInstr_decodeDpArgs_wf {w : Word} (hdp : w.extractLsb' 26 2 = 0b00#2)
    (hmul : ¬ (w.extractLsb' 22 6 = 0b000000#6 ∧ w.extractLsb' 4 4 = 0b1001#4)) :
    (dpInstr (w.extractLsb' 21 4) (decodeDpArgs w)).wf = true := by
  refine dpInstr_wf fun hop => Bool.eq_false_iff.2 fun hm => hmul ?_
  obtain ⟨h25, hlow⟩ := bits_of_decodeOperand2_looksLikeMultiply hm
  obtain ⟨h27, h26⟩ := (dataProcessingPattern_iff w).1 hdp
  have hhigh : ∀ x : BitVec 4, x.toNat < 2 → x.getLsbD 3 = false ∧ x.getLsbD 2 = false ∧ x.getLsbD 1 = false := by
    decide
  obtain ⟨h24, h23, h22⟩ : w.getLsbD 24 = false ∧ w.getLsbD 23 = false ∧ w.getLsbD 22 = false := by
    simpa using hhigh _ hop
  exact ⟨(mulUpperPattern_iff w).2 ⟨h27, h26, h25, h24, h23, h22⟩, hlow⟩

/-- The bits that no class claims are those of R77 (30_encoding.md R64). -/
theorem outsideEveryClass_of_no_class {w : Word} (hswi : ¬ w.extractLsb' 24 4 = 0b1111#4)
    (hbranch : ¬ w.extractLsb' 25 3 = 0b101#3) (hls : ¬ w.extractLsb' 26 2 = 0b01#2)
    (hdp : ¬ w.extractLsb' 26 2 = 0b00#2) : outsideEveryClass (w.extractLsb' 0 28) = true := by
  rw [swiPattern_iff] at hswi
  rw [branchPattern_iff] at hbranch
  rw [loadStorePattern_iff] at hls
  rw [dataProcessingPattern_iff] at hdp
  have h27 : w.getLsbD 27 = true := by
    by_contra h
    rcases h26 : w.getLsbD 26 with _ | _
    · exact hdp ⟨Bool.eq_false_iff.2 h, h26⟩
    · exact hls ⟨Bool.eq_false_iff.2 h, h26⟩
  have hform : (w.getLsbD 26 = false ∧ w.getLsbD 25 = false) ∨ (w.getLsbD 26 = true ∧ w.getLsbD 25 = false) ∨
      (w.getLsbD 26 = true ∧ w.getLsbD 25 = true ∧ w.getLsbD 24 = false) := by
    rcases h26 : w.getLsbD 26 with _ | _ <;> rcases h25 : w.getLsbD 25 with _ | _
    · exact .inl ⟨rfl, rfl⟩
    · exact absurd ⟨h27, h26, h25⟩ hbranch
    · exact .inr (.inl ⟨rfl, rfl⟩)
    · exact .inr (.inr ⟨rfl, rfl, Bool.eq_false_iff.2 fun h24 => hswi ⟨h27, h26, h25, h24⟩⟩)
  simpa [outsideEveryClass, eq_100_iff, eq_110_iff, eq_1110_iff, h27, or_assoc] using hform

/-- Every word decodes to an instruction of the core (30_encoding.md R63, R64). -/
theorem decodeWord_wf (w : Word) : (decodeWord w).wf = true := by
  unfold decodeWord
  split_ifs with hswi hmul hacc hbranch hlink hls hdp
  · rfl
  · rfl
  · rfl
  · rfl
  · rfl
  · exact decodeLoadStore_wf w
  · exact dpInstr_decodeDpArgs_wf hdp hmul
  · exact outsideEveryClass_of_no_class hswi hbranch hls hdp

end Sys2Proof
end

section
/-! The halt (60_exceptions.md R230, R231): which instructions raise it in `exec`, that no other writes the halted flag,
what a step that halts has run, and the obligation about it. -/

namespace Sys2Proof.Machine

open Sys2Proof.Claims

/-! ### What keeps the halted flag -/

section Writes

variable (s : State) (r : Word) (sum : Sum) (c : Bool)

@[simp] theorem logicalWrite_halted (a : DpArgs) : (logicalWrite a r c s).halted = s.halted := by
  obtain ⟨-, hhalted, -⟩ := logicalWrite_frame s r c a
  exact hhalted

@[simp] theorem arithmeticWrite_halted (a : DpArgs) : (arithmeticWrite a sum s).halted = s.halted := by
  obtain ⟨-, hhalted, -⟩ := arithmeticWrite_frame s sum a
  exact hhalted

@[simp] theorem multiplyWrite_halted (a : MulArgs) : (multiplyWrite a r s).halted = s.halted := by
  obtain ⟨-, hhalted, -⟩ := multiplyWrite_frame s r a
  exact hhalted

end Writes

section Accesses

variable {a : LsArgs} {s t : State}

theorem resolveAddress_halted {n : State} {addr : Word} (h : resolveAddress a s = .access addr n) :
    n.halted = s.halted := by
  obtain ⟨-, hhalted, -⟩ := resolveAddress_keeps h
  exact hhalted

theorem LsArgs.not_userMode (ha : a.supported = true) (hp : a.p = false) : a.w ≠ true := by
  intro hw
  rw [LsArgs.supported, hp, hw] at ha
  cases ha

/-- In a supported form the flag is the one of the resolver's next state, which differs in the base at most. -/
theorem halted_of_supported (ha : a.supported = true)
    (h : (a.p = false ∧ a.w = true ∧ t = s.raiseHalt) ∨
      ∃ addr n, resolveAddress a s = .access addr n ∧ t.halted = n.halted) : t.halted = s.halted := by
  rcases h with ⟨hp, hw, -⟩ | ⟨addr, n, hr, ht⟩
  · exact absurd hw (LsArgs.not_userMode ha hp)
  · exact ht.trans (resolveAddress_halted hr)

end Accesses

/-! ### What raises the halt -/

section Executor

variable {i : Instr} {s t : State}

theorem exec_of_isHalting (hi : IsHalting i s) : exec i s = .next s.raiseHalt := by
  rcases hi with ⟨a, rfl, ha⟩ | ⟨a, rfl⟩
  · exact exec_swi_of_haltImm ha
  · exact exec_lsUnsupported a s

/-- No other instruction of the core writes the halted flag. -/
theorem exec_halted_of_not_isHalting (hwf : i.wf = true) (hn : ¬ IsHalting i s) (h : exec i s = .next t) :
    t.halted = s.halted := by
  cases i with
  | swi a =>
    have ha : a.imm24 ≠ s.params.haltImm := fun ha => hn (.inl ⟨a, rfl, ha⟩)
    rw [exec_swi_of_ne_haltImm ha] at h
    cases h
    rfl
  | lsUnsupported a => exact absurd (.inr ⟨a, rfl⟩) hn
  | ldr a =>
    exact halted_of_supported hwf ((execLdr_next h).imp_right fun ⟨addr, n, _, hr, _, ht⟩ =>
      ⟨addr, n, hr, by rw [ht, State.setReg_halted]⟩)
  | ldrb a =>
    exact halted_of_supported hwf ((execLdrb_next h).imp_right fun ⟨addr, n, _, hr, _, ht⟩ =>
      ⟨addr, n, hr, by rw [ht, State.setReg_halted]⟩)
  | str a =>
    exact halted_of_supported hwf ((execStr_next h).imp_right fun ⟨addr, n, hr, _, ht⟩ =>
      ⟨addr, n, hr, by rw [ht, State.setMem_halted]⟩)
  | strb a =>
    exact halted_of_supported hwf ((execStrb_next h).imp_right fun ⟨addr, n, hr, _, ht⟩ =>
      ⟨addr, n, hr, by rw [ht, State.setMem_halted]⟩)
  | and a | eor a | orr a | mov a | bic a | mvn a =>
    cases h
    exact logicalWrite_halted s _ _ a
  | sub a | rsb a | add a | adc a | sbc a | rsc a =>
    cases h
    exact arithmeticWrite_halted s _ a
  | mul a | mla a =>
    cases h
    exact multiplyWrite_halted s _ a
  | tst a | teq a =>
    cases h
    exact s.setLogicFlags_halted _ _
  | cmp a | cmn a =>
    cases h
    exact s.setArithFlags_halted _
  | b a | bl a | unrecognised c bits =>
    cases h
    rfl

end Executor

/-! ### The halting step -/

/-- Everything a step that halts a running core can be: the cycle of a halting instruction whose condition passes, which
raises the halt and does not advance the program counter (60_exceptions.md R231). -/
theorem step_halts_cases {s t : State} (hs : s.halted = false) (h : step s = .next t) (ht : t.halted = true) :
    t = s.raiseHalt ∧
      ∃ w, fetch s = some w ∧ conditionPassed (decodeWord w).cond s = true ∧ IsHalting (decodeWord w) s := by
  rcases step_cases h with ⟨hh, -⟩ | ⟨-, w, hf, ⟨-, rfl⟩ | ⟨hc, u, he, rfl⟩⟩
  · exact absurd (hs.symm.trans hh) Bool.false_ne_true
  · rw [State.advancePc_halted, hs] at ht
    cases ht
  · have hu : u.halted = true := by rwa [State.advancePc_halted] at ht
    have hi : IsHalting (decodeWord w) s := by
      by_contra hn
      have hkept : u.halted = s.halted := exec_halted_of_not_isHalting (decodeWord_wf w) hn he
      exact absurd (hs.symm.trans (hkept.symm.trans hu)) Bool.false_ne_true
    obtain rfl : s.raiseHalt = u := by
      have he' := exec_of_isHalting hi
      rw [he] at he'
      cases he'
      rfl
    exact ⟨State.advancePc_of_halted _ hu, w, hf, hc, hi⟩

/-- Settles O19: a halting instruction raises the halt; conversely every word decodes to a well-formed instruction, and
no other well-formed instruction writes the flag, so a step that halts is `raiseHalt`, which `HaltOf` and the two
reports describe. -/
theorem haltIsPreciseAndHasTwoCauses : Obligations.HaltIsPreciseAndHasTwoCauses := by
  refine fun s hs => ⟨fun w hf hc hi => ?halts, fun t hstep ht => ?precise⟩
  case halts => exact ⟨s.raiseHalt, step_of_raiseHalt hs hf hc (exec_of_isHalting hi), s.raiseHalt_halted⟩
  case precise =>
    obtain ⟨rfl, hcause⟩ := step_halts_cases hs hstep ht
    exact ⟨hcause, s.raiseHalt_haltOf, cpuCycle_of_raiseHalt hs hstep, cpuCycle_of_halted ht⟩

end Sys2Proof.Machine
end

section
/-! The two round trips between instructions and words (30_encoding.md sections 2 to 6), and
the obligations about them. -/

namespace Sys2Proof

/-! ### From an instruction to its word and back -/

/-- Bits P, W, L and B choose the instruction of a supported load/store word (30_encoding.md R68, R73). -/
theorem decodeWord_encodeLoadStore_of_supported {a : LsArgs} (h : a.supported = true) (b l : Bool) :
    decodeWord (encodeLoadStore a.cond a.p a.u b a.w l a.rn a.rd a.offset) =
      if l then (if b then .ldrb a else .ldr a) else if b then .strb a else .str a := by
  obtain ⟨hclass, hp, hw, hl, hb⟩ := decodeWord_encodeLoadStore a.cond a.p a.u b a.w l a.rn a.rd a.offset
  have hform : ¬ (!a.p && a.w) = true := by simpa [LsArgs.supported, or_iff_not_imp_left] using h
  rw [hclass, decodeLoadStore, hp, hw, hl, hb, if_neg hform, decodeLsArgs_encodeLoadStore a b l]
  cases l <;> cases b <;> rfl

theorem decodeWord_encode_lsUnsupported (a : LsUnsupportedArgs) :
    decodeWord (encode (.lsUnsupported a)) = .lsUnsupported a := by
  obtain ⟨hclass, hp, hw, -⟩ := decodeWord_encodeLoadStore a.cond false a.u a.b true a.l a.rn a.rd a.offset
  exact (hclass.trans (Machine.decodeLoadStore_of_userMode hp hw)).trans
    (congrArg Instr.lsUnsupported (decodeLsUnsupportedArgs_encodeLoadStore a false true))

theorem decodeWord_encode_swi (a : SwiArgs) : decodeWord (encode (.swi a)) = .swi a := by
  obtain ⟨hcond, hclass, himm⟩ := encodeSwi_fields a
  rw [decodeWord, if_pos hclass, decodeSwiArgs, condOf_of_extract hcond, himm]

/-- The bits of an unrecognised word keep it out of every class (30_encoding.md R64, R77). -/
theorem decodeWord_encode_unrecognised {c : Cond} {bits : BitVec 28} (h : outsideEveryClass bits = true) :
    decodeWord (encode (.unrecognised c bits)) = .unrecognised c bits := by
  obtain ⟨hcond, hbits⟩ := encodeUnrecognised_fields c bits
  have hout : (encode (.unrecognised c bits)).extractLsb' 25 3 = 0b100#3 ∨
      (encode (.unrecognised c bits)).extractLsb' 25 3 = 0b110#3 ∨
      (encode (.unrecognised c bits)).extractLsb' 24 4 = 0b1110#4 := by
    rw [extract_of_low (m := 3) hbits 25 (by decide), extract_of_low (m := 4) hbits 24 (by decide)]
    simpa [outsideEveryClass, or_assoc] using h
  rw [Machine.decodeWord_of_outside hout, condOf_of_extract hcond, hbits]

/-- Settles O1: each format is read back in its class; well-formedness rules out the data-processing words that are
multiplies, the load/store words that are the unsupported form, and the unrecognised words that are of a class. -/
theorem decodeOfEncodeIsIdentity : Obligations.DecodeOfEncodeIsIdentity := by
  intro i hwf
  cases i with
  | swi a => exact decodeWord_encode_swi a
  | mul a => exact decodeWord_encodeMul false a
  | mla a => exact decodeWord_encodeMul true a
  | b a => exact decodeWord_encodeBranch false a
  | bl a => exact decodeWord_encodeBranch true a
  | lsUnsupported a => exact decodeWord_encode_lsUnsupported a
  | ldr a => exact decodeWord_encodeLoadStore_of_supported hwf false true
  | ldrb a => exact decodeWord_encodeLoadStore_of_supported hwf true true
  | str a => exact decodeWord_encodeLoadStore_of_supported hwf false false
  | strb a => exact decodeWord_encodeLoadStore_of_supported hwf true false
  | and a | eor a => exact decodeWord_encodeDp fun _ => by simpa [Instr.wf] using hwf
  | sub a | rsb a | add a | adc a | sbc a | rsc a | tst a | teq a | cmp a | cmn a | orr a | mov a | bic a | mvn a =>
    exact decodeWord_encodeDp fun h => absurd h (by decide)
  | unrecognised c bits => exact decodeWord_encode_unrecognised hwf

/-! ### From a word to its instruction and back -/

section Word

variable (w : Word)

/-- Operand 2 keeps every bit of its field (30_encoding.md R70). -/
theorem bits_decodeOperand2 : (decodeOperand2 w).bits = w.extractLsb' 0 12 := by
  unfold decodeOperand2
  split_ifs with h25 h4
  · exact BitVec.extractLsb'_append_extractLsb'_eq_extractLsb' rfl
  · have hfour : 0b1#1 = w.extractLsb' 4 1 := by rw [← bit_getLsbD, h4]; rfl
    simp only [Operand2.bits, regCode_regAt, bit_getLsbD, code_shiftTypeOf, hfour,
      BitVec.extractLsb'_append_extractLsb'_eq_extractLsb', -Nat.reduceAdd]
  · have hfour : 0b0#1 = w.extractLsb' 4 1 := by rw [← bit_getLsbD, Bool.eq_false_iff.2 h4]; rfl
    simp only [Operand2.bits, regCode_regAt, code_shiftTypeOf, hfour,
      BitVec.extractLsb'_append_extractLsb'_eq_extractLsb', -Nat.reduceAdd]

theorem iBit_decodeOperand2 : (decodeOperand2 w).iBit = w.getLsbD 25 := by
  unfold decodeOperand2
  split_ifs with h25 h4
  · exact h25.symm
  all_goals exact (Bool.eq_false_iff.2 h25).symm

/-- The offset keeps every bit of its field (30_encoding.md R71). -/
theorem bits_decodeOffset : (decodeOffset w).bits = w.extractLsb' 0 12 := by
  unfold decodeOffset
  split_ifs with h25
  · simp only [Offset.bits, regCode_regAt, bit_getLsbD, code_shiftTypeOf,
      BitVec.extractLsb'_append_extractLsb'_eq_extractLsb', -Nat.reduceAdd]
  · rfl

theorem iBit_decodeOffset : (decodeOffset w).iBit = w.getLsbD 25 := by
  unfold decodeOffset
  split_ifs with h25
  · exact h25.symm
  · exact (Bool.eq_false_iff.2 h25).symm

end Word

section Formats

variable {w : Word}

theorem encodeSwi_decodeSwiArgs (h : w.extractLsb' 24 4 = 0b1111#4) : encode (.swi (decodeSwiArgs w)) = w := by
  simp only [encode, decodeSwiArgs, code_condOf, ← h,
    BitVec.extractLsb'_append_extractLsb'_eq_extractLsb', -Nat.reduceAdd]
  exact BitVec.extractLsb'_eq_self

theorem encodeMul_decodeMulArgs (hupper : w.extractLsb' 22 6 = 0b000000#6) (hlower : w.extractLsb' 4 4 = 0b1001#4) :
    encodeMul (w.getLsbD 21) (decodeMulArgs w) = w := by
  simp only [encodeMul, decodeMulArgs, code_condOf, regCode_regAt, bit_getLsbD, ← hupper, ← hlower,
    BitVec.extractLsb'_append_extractLsb'_eq_extractLsb', -Nat.reduceAdd]
  exact BitVec.extractLsb'_eq_self

theorem encodeBranch_decodeBranchArgs (h : w.extractLsb' 25 3 = 0b101#3) :
    encodeBranch (w.getLsbD 24) (decodeBranchArgs w) = w := by
  simp only [encodeBranch, decodeBranchArgs, code_condOf, bit_getLsbD, ← h,
    BitVec.extractLsb'_append_extractLsb'_eq_extractLsb', -Nat.reduceAdd]
  exact BitVec.extractLsb'_eq_self

theorem encodeLoadStore_of_fields (h : w.extractLsb' 26 2 = 0b01#2) :
    encodeLoadStore (condOf w) (w.getLsbD 24) (w.getLsbD 23) (w.getLsbD 22) (w.getLsbD 21) (w.getLsbD 20)
      (regAt w 16) (regAt w 12) (decodeOffset w) = w := by
  simp only [encodeLoadStore, code_condOf, regCode_regAt, bit_getLsbD, bits_decodeOffset, iBit_decodeOffset, ← h,
    BitVec.extractLsb'_append_extractLsb'_eq_extractLsb', -Nat.reduceAdd]
  exact BitVec.extractLsb'_eq_self

theorem encodeDp_decodeDpArgs (h : w.extractLsb' 26 2 = 0b00#2) :
    encodeDp (w.extractLsb' 21 4) (decodeDpArgs w) = w := by
  simp only [encodeDp, decodeDpArgs, code_condOf, regCode_regAt, bit_getLsbD, bits_decodeOperand2,
    iBit_decodeOperand2, ← h,
    BitVec.extractLsb'_append_extractLsb'_eq_extractLsb', -Nat.reduceAdd]
  exact BitVec.extractLsb'_eq_self

theorem encodeUnrecognised_of_fields (w : Word) : encode (.unrecognised (condOf w) (w.extractLsb' 0 28)) = w := by
  simp only [encode, code_condOf,
    BitVec.extractLsb'_append_extractLsb'_eq_extractLsb', -Nat.reduceAdd]
  exact BitVec.extractLsb'_eq_self

theorem encode_decodeLoadStore (h : w.extractLsb' 26 2 = 0b01#2) : encode (decodeLoadStore w) = w := by
  have hword := encodeLoadStore_of_fields h
  unfold decodeLoadStore
  split_ifs with huser
  · obtain ⟨hp, hw⟩ : w.getLsbD 24 = false ∧ w.getLsbD 21 = true := by simpa using huser
    rwa [hp, hw] at hword
  · split <;> next hl hb => rwa [hl, hb] at hword

/-- The opcode of the word of a data-processing instruction (30_encoding.md R72). -/
theorem encode_dpInstr (op : BitVec 4) (a : DpArgs) : encode (dpInstr op a) = encodeDp op a := by
  obtain ⟨k, hk⟩ := op
  interval_cases k <;> rfl

theorem encode_decodeWord (w : Word) : encode (decodeWord w) = w := by
  unfold decodeWord
  split_ifs with hswi hmul hacc hbranch hlink hls hdp
  · exact encodeSwi_decodeSwiArgs hswi
  · have hword := encodeMul_decodeMulArgs hmul.1 hmul.2
    rwa [hacc] at hword
  · have hword := encodeMul_decodeMulArgs hmul.1 hmul.2
    rwa [Bool.eq_false_iff.2 hacc] at hword
  · have hword := encodeBranch_decodeBranchArgs hbranch
    rwa [hlink] at hword
  · have hword := encodeBranch_decodeBranchArgs hbranch
    rwa [Bool.eq_false_iff.2 hlink] at hword
  · exact encode_decodeLoadStore hls
  · exact (encode_dpInstr _ _).trans (encodeDp_decodeDpArgs hdp)
  · exact encodeUnrecognised_of_fields w

end Formats

/-- Settles O2: the decoder answers well-formed instructions only, and each format is the fields of the word put
together again. -/
theorem everyWordEncodesItsDecoding : Obligations.EveryWordEncodesItsDecoding := fun w =>
  ⟨decodeWord_wf w, encode_decodeWord w⟩

end Sys2Proof
end

section
/-! The opcode table of 30_encoding.md R73: each of its rows as a class pattern of R63 with the bits that tell the
instructions of the class apart, and the obligation about it. -/

namespace Sys2Proof

open Sys2Proof.Claims

variable (w : Word)

/-! ### The rows as class patterns -/

/-- A row fits a word when each bit under the mask is the one of the match, and the match has no bit outside it. -/
theorem maskMatch_eq_all (mask pattern : Word) :
    (w &&& mask == pattern) =
      (List.range 32).all fun k => (w.getLsbD k && mask.getLsbD k) == pattern.getLsbD k := by
  rw [Bool.eq_iff_iff, beq_iff_eq, List.all_eq_true, BitVec.eq_of_getLsbD_eq_iff]
  simp

/-- The ten rows before the data-processing ones, in their order. -/
theorem classRows :
    (w &&& 0x0F000000 == 0x0F000000) = decide (w.extractLsb' 24 4 = 0b1111#4) ∧
    (w &&& 0x0FE000F0 == 0x00000090) =
      (decide (w.extractLsb' 22 6 = 0b000000#6 ∧ w.extractLsb' 4 4 = 0b1001#4) && !w.getLsbD 21) ∧
    (w &&& 0x0FE000F0 == 0x00200090) =
      (decide (w.extractLsb' 22 6 = 0b000000#6 ∧ w.extractLsb' 4 4 = 0b1001#4) && w.getLsbD 21) ∧
    (w &&& 0x0F000000 == 0x0A000000) = (decide (w.extractLsb' 25 3 = 0b101#3) && !w.getLsbD 24) ∧
    (w &&& 0x0F000000 == 0x0B000000) = (decide (w.extractLsb' 25 3 = 0b101#3) && w.getLsbD 24) ∧
    (w &&& 0x0D200000 == 0x04200000) =
      (decide (w.extractLsb' 26 2 = 0b01#2) && (!w.getLsbD 24 && w.getLsbD 21)) ∧
    (w &&& 0x0C500000 == 0x04100000) =
      (decide (w.extractLsb' 26 2 = 0b01#2) && (w.getLsbD 20 && !w.getLsbD 22)) ∧
    (w &&& 0x0C500000 == 0x04500000) =
      (decide (w.extractLsb' 26 2 = 0b01#2) && (w.getLsbD 20 && w.getLsbD 22)) ∧
    (w &&& 0x0C500000 == 0x04000000) =
      (decide (w.extractLsb' 26 2 = 0b01#2) && (!w.getLsbD 20 && !w.getLsbD 22)) ∧
    (w &&& 0x0C500000 == 0x04400000) =
      (decide (w.extractLsb' 26 2 = 0b01#2) && (!w.getLsbD 20 && w.getLsbD 22)) := by
  refine ⟨?_, ?_, ?_, ?_, ?_, ?_, ?_, ?_, ?_, ?_⟩
  all_goals
    rw [maskMatch_eq_all, Bool.eq_iff_iff]
    simp [List.range_succ, swiPattern_iff, mulUpperPattern_iff, mulLowerPattern_iff, branchPattern_iff,
      loadStorePattern_iff]
    tauto

theorem eq_iff_bits : ∀ x y : BitVec 4, x = y ↔ x.getLsbD 0 = y.getLsbD 0 ∧ x.getLsbD 1 = y.getLsbD 1 ∧
    x.getLsbD 2 = y.getLsbD 2 ∧ x.getLsbD 3 = y.getLsbD 3 := by decide

/-- The sixteen data-processing rows: the class and the opcode (30_encoding.md R72). -/
theorem dpRow (op : BitVec 4) :
    (w &&& 0x0DE00000 == op.zeroExtend 32 <<< 21) =
      (decide (w.extractLsb' 26 2 = 0b00#2) && decide (w.extractLsb' 21 4 = op)) := by
  have hop : w.extractLsb' 21 4 = op ↔ w.getLsbD 21 = op.getLsbD 0 ∧ w.getLsbD 22 = op.getLsbD 1 ∧
      w.getLsbD 23 = op.getLsbD 2 ∧ w.getLsbD 24 = op.getLsbD 3 := by
    rw [eq_iff_bits]
    simp
  rw [maskMatch_eq_all, Bool.eq_iff_iff]
  simp [List.range_succ, dataProcessingPattern_iff, hop]
  tauto

/-- The row of a data-processing opcode. -/
def opcodeRow (a : DpArgs) (op : BitVec 4) : Row := ⟨(dpInstr op a).mnemonic, 0x0DE00000, op.zeroExtend 32 <<< 21⟩

/-- The sixteen opcodes in their order. -/
def opcodes : List (BitVec 4) := (List.range 16).map (BitVec.ofNat 4)

/-- The rows from the eleventh on are those of the opcodes, and the one that every word fits. -/
theorem opcodeTable_drop (a : DpArgs) :
    opcodeTable.drop 10 = opcodes.map (opcodeRow a) ++ [⟨"UNRECOGNISED", 0, 0⟩] := rfl

theorem find?_opcodes : ∀ op : BitVec 4, (opcodes.find? fun o => decide (op = o)) = some op := by decide

/-- Of the rows from the eleventh on a word of the data-processing class fits the one of its opcode, any other word the last
one (30_encoding.md R77). -/
theorem dpRows_find (a : DpArgs) :
    ((opcodeTable.drop 10).find? fun r => w &&& r.mask == r.pattern).map (·.mnemonic) =
      some (if w.extractLsb' 26 2 = 0b00#2 then (dpInstr (w.extractLsb' 21 4) a).mnemonic else "UNRECOGNISED") := by
  rw [opcodeTable_drop a, List.find?_append, List.find?_map]
  have hfit : (fun r : Row => w &&& r.mask == r.pattern) ∘ opcodeRow a =
      fun op => decide (w.extractLsb' 26 2 = 0b00#2) && decide (w.extractLsb' 21 4 = op) := funext (dpRow w)
  rw [hfit]
  by_cases h : w.extractLsb' 26 2 = 0b00#2
  · simp only [h, decide_true, Bool.true_and, if_true, find?_opcodes]
    rfl
  · have hnone : opcodes.find? (fun _ => false) = none := List.find?_eq_none.2 fun _ _ => Bool.false_ne_true
    simp [h, hnone]

/-- The table is tried row by row, its first ten rows first. -/
theorem firstRow_eq_or (a : DpArgs) :
    firstRow w = (((opcodeTable.take 10).find? fun r => w &&& r.mask == r.pattern).map (·.mnemonic)).or
      (some (if w.extractLsb' 26 2 = 0b00#2 then (dpInstr (w.extractLsb' 21 4) a).mnemonic else "UNRECOGNISED")) := by
  rw [firstRow, ← List.take_append_drop 10 opcodeTable, List.find?_append, ← dpRows_find, Option.map_or]
  rfl

/-- Settles O3: the rows are tried in the order of the decoder's classes. -/
theorem decoderFollowsOpcodeTable : Obligations.DecoderFollowsOpcodeTable := by
  intro w
  obtain ⟨hswi, hmul, hmla, hb, hbl, huser, hldr, hldrb, hstr, hstrb⟩ := classRows w
  rw [firstRow_eq_or w (decodeDpArgs w)]
  generalize hdp : (if w.extractLsb' 26 2 = 0b00#2 then
    (dpInstr (w.extractLsb' 21 4) (decodeDpArgs w)).mnemonic else "UNRECOGNISED") = last
  simp only [opcodeTable, List.cons_append, List.take_succ_cons, List.take_zero, List.find?_cons, List.find?_nil,
    hswi, hmul, hmla, hb, hbl, huser, hldr, hldrb, hstr, hstrb]
  unfold decodeWord
  split_ifs with cswi cmul cacc cbranch clink cls cdp <;>
    simp only [*, and_self, decide_true, decide_false, Bool.true_and, Bool.false_and]
  · rfl
  · rfl
  · rfl
  · rfl
  · rfl
  · -- the rows of the class read the four bits that `decodeLoadStore` reads
    unfold decodeLoadStore
    cases w.getLsbD 24 <;> cases w.getLsbD 21 <;> cases w.getLsbD 20 <;> cases w.getLsbD 22 <;> rfl
  · exact congrArg some (hdp.symm.trans (if_pos cdp))
  · exact congrArg some (hdp.symm.trans (if_neg cdp))

end Sys2Proof
end

section
/-! An instruction as four bytes in memory (30_encoding.md section 1; 20_memory.md R49), words written out from the
formats, and the obligations about them. -/

namespace Sys2Proof

open Sys2Proof.Machine

theorem decodeBytes_of_length_lt {bytes : List Byte} (h : bytes.length < 4) :
    decodeBytes bytes = .error .truncated := by
  match bytes, h with
  | [], _ | [_], _ | [_, _], _ | [_, _, _], _ => rfl

/-- The decoder reads the first four bytes as a word (20_memory.md R45). -/
theorem decodeBytes_encodeBytes_append (i : Instr) (rest : List Byte) :
    decodeBytes (encodeBytes i ++ rest) = .ok (decodeWord (encode i), rest) := by
  have hword := wordOfBytes_byteOfWord (encode i)
  exact congrArg (fun w => Except.ok (decodeWord w, rest)) hword

/-- Settles O5: the four bytes make the word of the instruction, which decodes to it. -/
theorem fourBytesDecodeOneInstruction : Obligations.FourBytesDecodeOneInstruction := by
  refine ⟨fun i rest hwf => ?_, fun bytes hlen => decodeBytes_of_length_lt hlen⟩
  rw [decodeBytes_encodeBytes_append, decodeOfEncodeIsIdentity i hwf]

/-- Settles O4: the decoder runs on the seven words. -/
theorem wordsOfEveryClassDecode : Obligations.WordsOfEveryClassDecode :=
  ⟨by decide, by decide, by decide, by decide, by decide, by decide, by decide⟩

end Sys2Proof
end

section
/-! The fields a class ignores (30_encoding.md R81) and the condition table (40_condition.md R91), and the obligations
about them. -/

namespace Sys2Proof.Machine

/-- Settles O6: the executor and the two resolvers do not look at these fields. -/
theorem ignoredFieldsHaveNoEffect : Obligations.IgnoredFieldsHaveNoEffect :=
  ⟨fun _ _ _ => ⟨rfl, rfl⟩, fun _ _ _ => rfl, fun _ _ _ _ => ⟨rfl, rfl, rfl, rfl⟩, fun _ _ _ _ _ _ => rfl,
    fun _ _ _ _ _ _ => rfl⟩

/-- Settles O17: each code names its condition, and each condition tests the flags at their bits. -/
theorem conditionsFollowTheTable : Obligations.ConditionsFollowTheTable := by
  intro s n z c v
  have hn : s.flag .n = n := rfl
  have hz : s.flag .z = z := rfl
  have hc : s.flag .c = c := rfl
  have hv : s.flag .v = v := rfl
  simp [Cond.ofCode, conditionPassed, hn, hz, hc, hv]

end Sys2Proof.Machine
end

section
/-! What every instruction leaves unchanged (the tables of 10_state.md R23 and R31), and the obligation about it. -/

namespace Sys2Proof.Machine

open Sys2Proof.Claims

/-- `t` differs from `s` in the listed registers and flags, the halted flag, the memory and the draws at most. -/
def WritesOnly (s t : State) (regs : List RegNum) (flags : List Flag) : Prop :=
  (∀ q, q ∉ regs → t.reg q = s.reg q) ∧ (∀ f, f ∉ flags → t.flag f = s.flag f) ∧
  t.cpsr.extractLsb' 0 28 = s.cpsr.extractLsb' 0 28 ∧ t.params = s.params

theorem writesOnly_of_frame {s t : State} {regs : List RegNum} {flags : List Flag} (h : Frame s t regs flags) :
    WritesOnly s t regs flags := by
  obtain ⟨hreg, hflag, hlow, -, hparams, -⟩ := h
  exact ⟨hreg, hflag, hlow, hparams⟩

theorem WritesOnly.refl (s : State) (regs : List RegNum) (flags : List Flag) : WritesOnly s s regs flags :=
  ⟨fun _ _ => rfl, fun _ _ => rfl, rfl, rfl⟩

/-- The halt writes no register, flag or parameter. -/
theorem raiseHalt_writesOnly (s : State) (regs : List RegNum) (flags : List Flag) :
    WritesOnly s s.raiseHalt regs flags := WritesOnly.refl s regs flags

/-! ### The frames of the shared writes -/

section Writes

variable (s : State) (r : Word) (c : Bool) (sum : Sum)

/-- The logical flags, written without a register: V is not among them (47_data_processing.md R169). -/
theorem State.setLogicFlags_frame : Frame s (s.setLogicFlags r c) [] [.n, .z, .c] := by
  refine ⟨fun q _ => rfl, fun g hg => ?flags, s.setLogicFlags_low r c, rfl, rfl, fun _ => rfl⟩
  case flags =>
    cases g with
    | v => exact s.setLogicFlags_flag r c .v
    | n | z | c => exact absurd (by decide) hg

/-- The arithmetic flags, written without a register (47_data_processing.md R167). -/
theorem State.setArithFlags_frame : Frame s (s.setArithFlags sum) [] [.n, .z, .c, .v] :=
  ⟨fun _ _ => rfl, fun g hg => absurd (by cases g <;> decide) hg, s.setArithFlags_low sum, rfl, rfl, fun _ => rfl⟩

/-- Two register writes, one after the other. -/
theorem State.setReg_setReg_frame (q q' : RegNum) (v v' : Word) :
    Frame s ((s.setReg q v).setReg q' v') [q, q'] [] := by
  refine ⟨fun p hp => ?registers, fun _ _ => rfl, rfl, rfl, rfl, fun _ => rfl⟩
  case registers =>
    obtain ⟨hq, hq'⟩ : p ≠ q ∧ p ≠ q' := by simpa using hp
    rw [State.reg_setReg_of_ne _ _ _ _ hq', State.reg_setReg_of_ne _ _ _ _ hq]

/-- The multiply write: V is not among its flags (44_multiply.md R147). -/
theorem multiplyWrite_claimsFrame (a : MulArgs) :
    Frame s (multiplyWrite a r s) [a.rd] (if a.s then [.n, .z, .c] else []) := by
  obtain ⟨hlow, hhalted, hmem, hparams, -⟩ := multiplyWrite_frame s r a
  refine ⟨fun q hq => ?registers, fun g hg => ?flags, hlow, hhalted, hparams, State.memRead8_congr hparams hmem⟩
  case registers => rw [multiplyWrite_reg, if_neg (mt List.mem_singleton.2 hq)]
  case flags =>
    cases hs : a.s with
    | false => rw [multiplyWrite_of_not_s s r a hs, State.setReg_flag]
    | true =>
      have hv : g = .v := by
        rw [hs] at hg
        cases g with
        | v => rfl
        | n | z | c => exact absurd (by decide) hg
      rw [hv, multiplyWrite_flag s r a .v (by decide), if_pos hs, State.setMulFlags_flag s r .v (by decide)]

end Writes

/-! ### Loads and stores -/

section Accesses

variable {a : LsArgs} {s n : State} {addr : Word}

/-- The resolver writes the base in the two modes that write it back. -/
theorem resolveAddress_writesOnly (h : resolveAddress a s = .access addr n) : WritesOnly s n (basesWritten a) [] := by
  rcases resolveAddress_access h with ⟨hp, hw, rfl⟩ | ⟨hpw, rfl⟩
  · exact WritesOnly.refl _ _ _
  · rw [basesWritten, if_pos hpw]
    exact writesOnly_of_frame (s.setReg_frame a.rn _)

end Accesses

/-! ### The executor -/

/-- What `i` may change of `s`: the registers and flags of its tables, the memory if it stores, the number of draws if
it is a multiply that sets the flags, and the halted flag. -/
def KeepsRest (i : Instr) (s t : State) : Prop :=
  WritesOnly s t (registersWritten i) (flagsWritten i) ∧ (¬ IsStore i → t.mem = s.mem) ∧
  (t.mulDraws ≠ s.mulDraws → ∃ a, (i = .mul a ∨ i = .mla a) ∧ a.s = true)

section Executor

variable {i : Instr} {s t : State}

theorem keepsRest_of_unchanged (hw : WritesOnly s t (registersWritten i) (flagsWritten i)) (hm : t.mem = s.mem)
    (hd : t.mulDraws = s.mulDraws) : KeepsRest i s t := ⟨hw, fun _ => hm, fun h => absurd hd h⟩

theorem keepsRest_logicalWrite {a : DpArgs} {r : Word} {c : Bool} (hr : registersWritten i = [a.rd])
    (hf : flagsWritten i = if a.s then [.n, .z, .c] else []) : KeepsRest i s (logicalWrite a r c s) := by
  obtain ⟨-, -, hmem, -, hdraws⟩ := logicalWrite_frame s r c a
  refine keepsRest_of_unchanged ?_ hmem hdraws
  rw [hr, hf]
  exact writesOnly_of_frame (logicalWrite_claimsFrame a s r c)

theorem keepsRest_arithmeticWrite {a : DpArgs} {sum : Sum} (hr : registersWritten i = [a.rd])
    (hf : flagsWritten i = if a.s then [.n, .z, .c, .v] else []) : KeepsRest i s (arithmeticWrite a sum s) := by
  obtain ⟨-, -, hmem, -, hdraws⟩ := arithmeticWrite_frame s sum a
  refine keepsRest_of_unchanged ?_ hmem hdraws
  rw [hr, hf]
  exact writesOnly_of_frame (arithmeticWrite_claimsFrame a s sum)

/-- With S = 0 a multiply draws no free value. -/
theorem keepsRest_multiplyWrite {a : MulArgs} {r : Word} (hi : i = .mul a ∨ i = .mla a) :
    KeepsRest i s (multiplyWrite a r s) := by
  obtain ⟨-, -, hmem, -, hdraws⟩ := multiplyWrite_frame s r a
  have hframe := writesOnly_of_frame (multiplyWrite_claimsFrame s r a)
  refine ⟨?_, fun _ => hmem, fun hd => ⟨a, hi, ?_⟩⟩
  · rcases hi with rfl | rfl <;> exact hframe
  · by_contra hs
    exact hd (hdraws.trans (if_neg hs))

/-- The loaded value is written after the base. -/
theorem keepsRest_load {a : LsArgs} {n : State} {addr : Word} (hr : resolveAddress a s = .access addr n)
    (hi : i = .ldr a ∨ i = .ldrb a) (v : Word) : KeepsRest i s (n.setReg a.rd v) := by
  obtain ⟨hreg, hflag, hlow, hparams⟩ := resolveAddress_writesOnly hr
  obtain ⟨-, -, hmem, -, hdraws, -⟩ := resolveAddress_keeps hr
  have hwrites : WritesOnly s (n.setReg a.rd v) (a.rd :: basesWritten a) [] := by
    refine ⟨fun q hq => ?_, hflag, hlow, hparams⟩
    obtain ⟨hd, hn⟩ := not_or.1 (mt List.mem_cons.2 hq)
    rw [State.reg_setReg_of_ne _ _ _ _ hd, hreg q hn]
  rcases hi with rfl | rfl <;> exact keepsRest_of_unchanged hwrites hmem hdraws

theorem keepsRest_store {a : LsArgs} {n : State} {addr : Word} (hr : resolveAddress a s = .access addr n)
    (hi : i = .str a ∨ i = .strb a) (m : Memory) : KeepsRest i s (n.setMem m) := by
  obtain ⟨-, -, -, -, hdraws, -⟩ := resolveAddress_keeps hr
  have hbase := resolveAddress_writesOnly hr
  have hwrites : WritesOnly s (n.setMem m) (basesWritten a) [] := hbase
  rcases hi with rfl | rfl <;> exact ⟨hwrites, fun hn => absurd ⟨a, by simp⟩ hn, fun h => absurd hdraws h⟩

theorem keepsRest_raiseHalt (i : Instr) (s : State) : KeepsRest i s s.raiseHalt :=
  keepsRest_of_unchanged (raiseHalt_writesOnly s _ _) rfl rfl

theorem keepsRest_refl (i : Instr) (s : State) : KeepsRest i s s :=
  keepsRest_of_unchanged (WritesOnly.refl s _ _) rfl rfl

/-- The frame of every instruction (10_state.md R23, R31). -/
theorem exec_keepsRest (h : exec i s = .next t) : KeepsRest i s t := by
  cases i with
  | swi a =>
    by_cases ha : a.imm24 = s.params.haltImm
    · rw [exec_swi_of_haltImm ha] at h
      cases h
      exact keepsRest_raiseHalt _ s
    · rw [exec_swi_of_ne_haltImm ha] at h
      cases h
      exact keepsRest_refl _ s
  | lsUnsupported a =>
    cases h
    exact keepsRest_raiseHalt _ s
  | ldr a =>
    rcases execLdr_next h with ⟨-, -, rfl⟩ | ⟨addr, n, v, hr, -, rfl⟩
    · exact keepsRest_raiseHalt _ s
    · exact keepsRest_load hr (.inl rfl) v
  | ldrb a =>
    rcases execLdrb_next h with ⟨-, -, rfl⟩ | ⟨addr, n, b, hr, -, rfl⟩
    · exact keepsRest_raiseHalt _ s
    · exact keepsRest_load hr (.inr rfl) _
  | str a =>
    rcases execStr_next h with ⟨-, -, rfl⟩ | ⟨addr, n, hr, -, rfl⟩
    · exact keepsRest_raiseHalt _ s
    · exact keepsRest_store hr (.inl rfl) _
  | strb a =>
    rcases execStrb_next h with ⟨-, -, rfl⟩ | ⟨addr, n, hr, -, rfl⟩
    · exact keepsRest_raiseHalt _ s
    · exact keepsRest_store hr (.inr rfl) _
  | and a | eor a | orr a | mov a | bic a | mvn a =>
    cases h
    exact keepsRest_logicalWrite rfl rfl
  | sub a | rsb a | add a | adc a | sbc a | rsc a =>
    cases h
    exact keepsRest_arithmeticWrite rfl rfl
  | mul a =>
    cases h
    exact keepsRest_multiplyWrite (.inl rfl)
  | mla a =>
    cases h
    exact keepsRest_multiplyWrite (.inr rfl)
  | tst a | teq a =>
    cases h
    exact keepsRest_of_unchanged (writesOnly_of_frame (s.setLogicFlags_frame _ _)) rfl rfl
  | cmp a | cmn a =>
    cases h
    exact keepsRest_of_unchanged (writesOnly_of_frame (s.setArithFlags_frame _)) rfl rfl
  | b a =>
    cases h
    exact keepsRest_of_unchanged (writesOnly_of_frame (s.setReg_frame _ _)) rfl rfl
  | bl a =>
    cases h
    exact keepsRest_of_unchanged (writesOnly_of_frame (s.setReg_setReg_frame _ _ _ _)) rfl rfl
  | unrecognised c bits =>
    cases h
    exact keepsRest_refl _ s

end Executor

/-- Settles O23: the frame of each group of instructions, and the halted flag, which only a halting form writes. -/
theorem everyInstructionKeepsItsFrame : Obligations.EveryInstructionKeepsItsFrame := by
  intro i s t h
  obtain ⟨⟨hreg, hflag, hlow, hparams⟩, hmem, hdraws⟩ := exec_keepsRest h
  exact ⟨hreg, hflag, hlow, hparams, fun hwf hn => exec_halted_of_not_isHalting hwf hn h,
    fun hn => State.memRead8_congr hparams (hmem hn), hdraws⟩

end Sys2Proof.Machine
end

section
/-! The instructions that do not access memory (20_memory.md section 2), the ways a step stops (60_exceptions.md R233),
and the obligations about them. -/

namespace Sys2Proof.Machine

open Sys2Proof.Claims

/-! ### Independence of the memory -/

section Independence

variable (s : State) (m : Memory)

@[simp] theorem shifterOperand_setMem (o : Operand2) : shifterOperand o (s.setMem m) = shifterOperand o s := rfl

theorem logicalWrite_setMem (a : DpArgs) (r : Word) (c : Bool) :
    logicalWrite a r c (s.setMem m) = (logicalWrite a r c s).setMem m := by
  unfold logicalWrite
  cases a.s <;> rfl

theorem arithmeticWrite_setMem (a : DpArgs) (sum : Sum) :
    arithmeticWrite a sum (s.setMem m) = (arithmeticWrite a sum s).setMem m := by
  unfold arithmeticWrite
  cases a.s <;> rfl

theorem multiplyWrite_setMem (a : MulArgs) (r : Word) :
    multiplyWrite a r (s.setMem m) = (multiplyWrite a r s).setMem m := by
  unfold multiplyWrite
  cases a.s <;> rfl

/-- An instruction that does not access memory answers a next state, and with another memory the same one with that
memory. -/
theorem exec_setMem {i : Instr} (h : ¬ AccessesMemory i) :
    ∃ t, exec i s = .next t ∧ exec i (s.setMem m) = .next (t.setMem m) := by
  cases i with
  | ldr a => exact absurd ⟨a, .inl rfl⟩ h
  | ldrb a => exact absurd ⟨a, .inr (.inl rfl)⟩ h
  | str a => exact absurd ⟨a, .inr (.inr (.inl rfl))⟩ h
  | strb a => exact absurd ⟨a, .inr (.inr (.inr rfl))⟩ h
  | swi a =>
    by_cases ha : a.imm24 = s.params.haltImm
    · exact ⟨_, exec_swi_of_haltImm ha, exec_swi_of_haltImm ha⟩
    · exact ⟨_, exec_swi_of_ne_haltImm ha, exec_swi_of_ne_haltImm ha⟩
  | and a | eor a | orr a | mov a | bic a | mvn a => exact ⟨_, rfl, congrArg _ (logicalWrite_setMem s m a _ _)⟩
  | sub a | rsb a | add a | adc a | sbc a | rsc a => exact ⟨_, rfl, congrArg _ (arithmeticWrite_setMem s m a _)⟩
  | mul a | mla a => exact ⟨_, rfl, congrArg _ (multiplyWrite_setMem s m a _)⟩
  | tst a | teq a | cmp a | cmn a | b a | bl a | lsUnsupported a | unrecognised c bits => exact ⟨_, rfl, rfl⟩

end Independence

theorem not_isStore_of_not_accessesMemory {i : Instr} (h : ¬ AccessesMemory i) : ¬ IsStore i := by
  rintro ⟨a, rfl | rfl⟩
  · exact h ⟨a, .inr (.inr (.inl rfl))⟩
  · exact h ⟨a, .inr (.inr (.inr rfl))⟩

/-- Settles O22: the executor of each of these instructions commutes with a change of memory, and only a store changes
the memory. -/
theorem otherInstructionsIgnoreMemory : Obligations.OtherInstructionsIgnoreMemory := by
  intro i s m h
  obtain ⟨t, ht, htm⟩ := exec_setMem s m h
  obtain ⟨-, hmem, -⟩ := exec_keepsRest ht
  exact ⟨t, ht, htm, hmem (not_isStore_of_not_accessesMemory h)⟩

/-! ### The Fatal of an instruction -/

theorem accessible_eq_false_iff {p : Params} (hp : p.wf) {a n : Nat} (hn : 0 < n) :
    accessible p a n = false ↔ ¬ InRegion p a n := by
  rw [← Bool.not_eq_true]
  exact not_congr (accessible_iff hp hn)

/-- Settles O20: the other instructions answer a next state, and the four name the address that they resolve and cannot
access. -/
theorem onlyMemoryAccessesAreFatal : Obligations.OnlyMemoryAccessesAreFatal := by
  intro i s r hp h
  by_cases hi : AccessesMemory i
  · obtain ⟨a, rfl | rfl | rfl | rfl⟩ := hi
    · obtain ⟨addr, n, hr, rfl, hacc⟩ := execLdr_fault h
      exact ⟨a, addr, n, hr, .inl ⟨rfl, rfl, (accessible_eq_false_iff hp (by decide)).1 hacc⟩⟩
    · obtain ⟨addr, n, hr, rfl, hacc⟩ := execLdrb_fault h
      exact ⟨a, addr, n, hr, .inr (.inl ⟨rfl, rfl, (accessible_eq_false_iff hp (by decide)).1 hacc⟩)⟩
    · obtain ⟨addr, n, hr, rfl, hacc⟩ := execStr_fault h
      exact ⟨a, addr, n, hr, .inr (.inr (.inl ⟨rfl, rfl, (accessible_eq_false_iff hp (by decide)).1 hacc⟩))⟩
    · obtain ⟨addr, n, hr, rfl, hacc⟩ := execStrb_fault h
      exact ⟨a, addr, n, hr, .inr (.inr (.inr ⟨rfl, rfl, (accessible_eq_false_iff hp (by decide)).1 hacc⟩))⟩
  · obtain ⟨t, ht, -⟩ := exec_setMem s s.mem hi
    rw [ht] at h
    cases h

/-! ### No refusal -/

/-- A load or store is refused only where its access is. -/
theorem loadStore_ne_refused {a : LsArgs} {s : State} {r : Refusal} {f : Word → State → Outcome}
    (hf : ∀ addr n, f addr n ≠ .refused r) : loadStore a s f ≠ .refused r := by
  unfold loadStore
  split
  · exact fun h => by cases h
  · exact hf _ _

theorem exec_ne_refused (i : Instr) (s : State) (r : Refusal) : exec i s ≠ .refused r := by
  by_cases hi : AccessesMemory i
  · obtain ⟨a, rfl | rfl | rfl | rfl⟩ := hi
    all_goals
      refine loadStore_ne_refused fun addr n h => ?_
      split at h <;> cases h
  · obtain ⟨t, ht, -⟩ := exec_setMem s s.mem hi
    rw [ht]
    exact fun h => by cases h

/-- Settles O21: the executor refuses nothing, and the cycle adds no refusal of its own. -/
theorem noStepIsRefused : Obligations.NoStepIsRefused := by
  intro s r h
  rcases hh : s.halted with _ | _
  · rcases hf : fetch s with _ | w
    · rw [step_of_no_fetch hh hf] at h
      cases h
    · rcases hc : conditionPassed (decodeWord w).cond s with _ | _
      · rw [step_of_failed hh hf hc] at h
        cases h
      · rw [step_of_passed hh hf hc] at h
        rcases he : exec (decodeWord w) s with u | f | r' <;> rw [he] at h <;> cases h
        exact exec_ne_refused _ s r he
  · rw [step_of_halted hh] at h
    cases h

end Sys2Proof.Machine
end

section
/-! The invariant `State.wf` (10_state.md sections 3 and 5): it holds after reset, and every step and every host
operation keep it; and the obligations about it. -/

namespace Sys2Proof.Machine

open Sys2Proof.Claims

/-! ### The memory part of the invariant -/

/-- Canonical memory inside the regions (10_state.md R35). -/
def MemoryWf (p : Params) (m : Memory) : Prop := Memory.wf m ∧ ∀ c ∈ m, regionOf p c.1 ≠ none

section MemoryInvariant

variable {p : Params} {m : Memory} {a : Nat}

theorem memoryWf_nil : MemoryWf p [] := ⟨⟨List.Pairwise.nil, by simp⟩, by simp⟩

theorem MemoryWf.writeWord (h : MemoryWf p m) (ha : accessible p a 4 = true) (v : Word) :
    MemoryWf p (Memory.writeWord m a v) := ⟨Memory.writeWord_wf h.1 a v, writeWord_mapped v h.2 ha⟩

theorem MemoryWf.write (h : MemoryWf p m) (ha : accessible p a 1 = true) (v : Byte) :
    MemoryWf p (Memory.write m a v) := ⟨Memory.write_wf h.1 a v, write_mapped v h.2 ha⟩

end MemoryInvariant

theorem State.wf_iff {s : State} : s.wf ↔ s.params.wf ∧ MemoryWf s.params s.mem ∧ s.cpsr.extractLsb' 0 28 = 0#28 :=
  ⟨fun ⟨hp, hm, hmap, hlow⟩ => ⟨hp, ⟨hm, hmap⟩, hlow⟩, fun ⟨hp, ⟨hm, hmap⟩, hlow⟩ => ⟨hp, hm, hmap, hlow⟩⟩

/-- A state with the parameters and the unused status bits of a legal one is legal if its memory is. -/
theorem State.wf.of_keeps {s t : State} (h : s.wf) (hp : t.params = s.params)
    (hl : t.cpsr.extractLsb' 0 28 = s.cpsr.extractLsb' 0 28) (hm : MemoryWf s.params t.mem) : t.wf := by
  obtain ⟨hsp, -, hsl⟩ := State.wf_iff.1 h
  exact State.wf_iff.2 ⟨hp ▸ hsp, hp ▸ hm, hl.trans hsl⟩

theorem State.wf.memoryWf {s : State} (h : s.wf) : MemoryWf s.params s.mem := by
  obtain ⟨-, hm, -⟩ := State.wf_iff.1 h
  exact hm

/-! ### Reset -/

theorem State.initial_wf {p : Params} (hp : p.wf) : (State.initial p).wf := State.wf_iff.2 ⟨hp, memoryWf_nil, rfl⟩

/-- Settles O8: the memory is empty and the status word zero. -/
theorem resetMeetsInvariant : Obligations.ResetMeetsInvariant :=
  ⟨State.initial_wf (p := Params.reference) (by decide), fun _ hp => State.initial_wf hp⟩

/-! ### The step -/

/-- Only STR and STRB write memory, and only inside a region. -/
theorem exec_memoryWf {i : Instr} {s t : State} (h : exec i s = .next t) (hm : MemoryWf s.params s.mem) :
    MemoryWf s.params t.mem := by
  by_cases hi : IsStore i
  · obtain ⟨a, rfl | rfl⟩ := hi
    · rcases execStr_next h with ⟨-, -, rfl⟩ | ⟨addr, n, -, hacc, rfl⟩
      · exact hm
      · exact hm.writeWord hacc _
    · rcases execStrb_next h with ⟨-, -, rfl⟩ | ⟨addr, n, -, hacc, rfl⟩
      · exact hm
      · exact hm.write hacc _
  · obtain ⟨-, hmem, -⟩ := exec_keepsRest h
    rw [hmem hi]
    exact hm

/-- The parameters and the unused status bits, by the frame of the executed instruction. -/
theorem step_keeps {s t : State} (h : step s = .next t) :
    t.cpsr.extractLsb' 0 28 = s.cpsr.extractLsb' 0 28 ∧ t.params = s.params := by
  rcases step_cases h with ⟨-, rfl⟩ | ⟨-, w, -, ⟨-, rfl⟩ | ⟨-, u, he, rfl⟩⟩
  · exact ⟨rfl, rfl⟩
  · rw [State.advancePc_cpsr, State.advancePc_params]
    exact ⟨rfl, rfl⟩
  · obtain ⟨⟨-, -, hlow, hparams⟩, -⟩ := exec_keepsRest he
    rw [State.advancePc_cpsr, State.advancePc_params]
    exact ⟨hlow, hparams⟩

theorem step_memoryWf {s t : State} (h : step s = .next t) (hm : MemoryWf s.params s.mem) :
    MemoryWf s.params t.mem := by
  rcases step_cases h with ⟨-, rfl⟩ | ⟨-, w, -, ⟨-, rfl⟩ | ⟨-, u, he, rfl⟩⟩
  · exact hm
  · rwa [State.advancePc_mem]
  · rw [State.advancePc_mem]
    exact exec_memoryWf he hm

theorem step_wf {s t : State} (hs : s.wf) (h : step s = .next t) : t.wf := by
  obtain ⟨hlow, hparams⟩ := step_keeps h
  exact hs.of_keeps hparams hlow (step_memoryWf h hs.memoryWf)

/-- Settles O11: in every state, legal or not. -/
theorem stepPreservesUnusedStatusBits : Obligations.StepPreservesUnusedStatusBits := fun _ _ h => step_keeps h

/-- Settles O9: the executed instruction keeps the parameters and the unused status bits, and stores inside a region
only. -/
theorem stepKeepsInvariant : Obligations.StepKeepsInvariant := fun _ _ hs h => step_wf hs h

/-! ### The host operations -/

/-- A reset makes the status word zero and keeps the parameters. -/
theorem resetCpu_wf {s : State} (h : s.wf) : (resetCpu s).wf := by
  obtain ⟨hp, hm, -⟩ := State.wf_iff.1 h
  exact State.wf_iff.2 ⟨hp, hm, rfl⟩

theorem State.setMem_wf {s : State} (h : s.wf) {m : Memory} (hm : MemoryWf s.params m) : (s.setMem m).wf :=
  h.of_keeps rfl rfl hm

theorem initialise_wf {s : State} (h : s.wf) : (initialise s).wf := resetCpu_wf (State.setMem_wf h memoryWf_nil)

/-- A word that fits in the text region lies in one region. -/
theorem accessible_text {p : Params} (hp : p.wf) {i : Nat} (h : 4 * (i + 1) ≤ p.textSize) :
    accessible p (p.textBase + 4 * i) 4 = true := (accessible_iff hp (by decide)).2 (.inl ⟨by omega, by omega⟩)

theorem loadWords_invariant (words : List Word) (i : Nat) {s : State} (h : s.wf) : (loadWords words i s).1.wf := by
  induction words generalizing i s with
  | nil => exact h
  | cons w ws ih =>
    unfold loadWords
    split
    · next hfit =>
      obtain ⟨hp, hm, -⟩ := State.wf_iff.1 h
      exact ih _ (State.setMem_wf h (hm.writeWord (accessible_text hp hfit) w))
    · exact h

theorem State.memWrite32_getD_wf {s : State} (h : s.wf) (a v : Word) : ((s.memWrite32 a v).getD s).wf := by
  rcases hm : s.memWrite32 a v with _ | t
  · exact h
  · obtain ⟨hacc, rfl⟩ := State.memWrite32_eq_some.1 hm
    exact State.setMem_wf h (h.memoryWf.writeWord hacc v)

theorem State.memWrite8_getD_wf {s : State} (h : s.wf) (a : Word) (b : Byte) : ((s.memWrite8 a b).getD s).wf := by
  rcases hm : s.memWrite8 a b with _ | t
  · exact h
  · obtain ⟨hacc, rfl⟩ := State.memWrite8_eq_some.1 hm
    exact State.setMem_wf h (h.memoryWf.write hacc b)

/-- The core after a cycle is the one of the step, or the one before it (48_cycle_engine.md R210). -/
theorem cpuCycle_core_cases (h : Session) :
    (cpuCycle h).2.core = h.core ∨ step h.core = .next (cpuCycle h).2.core := by
  obtain ⟨s, stuck⟩ := h
  cases stuck with
  | true => exact .inl rfl
  | false =>
    rcases hstep : step s with t | r | r
    · rw [cpuCycle_of_next hstep]
      exact .inr rfl
    · exact .inl (by simp only [cpuCycle, hstep]; rfl)
    · exact .inl (by simp only [cpuCycle, hstep]; rfl)

/-- Settles O10: each operation is a reset, a store inside a region, a register write, a step, or changes nothing. -/
theorem hostOperationsKeepInvariant : Obligations.HostOperationsKeepInvariant := by
  intro op h hwf
  cases op with
  | initialise => exact initialise_wf hwf
  | resetCpu => exact resetCpu_wf hwf
  | loadProgram words =>
    rw [hostStep_loadProgram_core]
    exact loadWords_invariant words 0 hwf
  | memRead32 a => rwa [hostStep_memRead32_core]
  | memWrite32 a v =>
    rw [hostStep_memWrite32_core]
    exact State.memWrite32_getD_wf hwf a v
  | memRead8 a => rwa [hostStep_memRead8_core]
  | memWrite8 a v =>
    rw [hostStep_memWrite8_core]
    exact State.memWrite8_getD_wf hwf a _
  | cpuCycle =>
    rcases cpuCycle_core_cases h with hcore | hstep
    · exact hcore.symm ▸ hwf
    · exact step_wf hwf hstep
  | getCpuState => exact hwf
  | setReg r v => exact hwf.of_keeps rfl rfl hwf.memoryWf

end Sys2Proof.Machine
end

section
/-! The program counter's alignment (10_state.md R21), the halted state as the end of every run (48_cycle_engine.md
R201), the failed fetch (R202) and the stuck session (60_exceptions.md R233); and the obligations about them. -/

namespace Sys2Proof.Machine

open Sys2Proof.Claims

/-! ### Alignment -/

theorem State.advancePc_pc_aligned {s : State} (h : s.pc.toNat % 4 = 0) : s.advancePc.pc.toNat % 4 = 0 := by
  rcases hs : s.halted with _ | _
  · have hpc : s.advancePc.pc = s.pc + 4#32 := State.advancePc_reg_pc hs
    rw [hpc, BitVec.toNat_add, BitVec.toNat_ofNat]
    omega
  · rwa [State.advancePc_of_halted s hs]

/-- The offset of a branch is four times its signed immediate (30_encoding.md R75). -/
theorem branchOffset_toInt (imm24 : BitVec 24) : (branchOffset imm24).toInt = 4 * imm24.toInt := by
  have hnat : (imm24 ++ 0b00#2).toNat = imm24.toNat * 4 := by
    rw [BitVec.toNat_append, Nat.shiftLeft_eq]
    exact Nat.or_zero _
  rw [branchOffset, BitVec.toInt_signExtend_of_le (by decide), BitVec.toInt_eq_toNat_cond, hnat,
    BitVec.toInt_eq_toNat_cond]
  split <;> split <;> omega

/-- So a branch moves the program counter by a multiple of 4. -/
theorem branchOffset_aligned (imm24 : BitVec 24) : (branchOffset imm24).toNat % 4 = 0 := by
  have hint := branchOffset_toInt imm24
  rw [BitVec.toInt_eq_toNat_cond] at hint
  split at hint <;> omega

theorem branchWrite_aligned {s : State} (h : s.pc.toNat % 4 = 0) (imm24 : BitVec 24) :
    (branchWrite imm24 s).toNat % 4 = 0 := by
  have hoff := branchOffset_aligned imm24
  have hbias : (branchBias - instrBytes).toNat = 4 := rfl
  rw [branchWrite, BitVec.toNat_add, BitVec.toNat_add, hbias]
  omega

/-- A branch leaves the program counter aligned, and so does every instruction that does not write it. -/
theorem exec_pc_aligned {i : Instr} {s t : State} (hpc : s.pc.toNat % 4 = 0)
    (hi : Config.pcIndex ∈ registersWritten i → ∃ a, i = .b a ∨ i = .bl a) (h : exec i s = .next t) :
    t.pc.toNat % 4 = 0 := by
  by_cases hw : Config.pcIndex ∈ registersWritten i
  · obtain ⟨a, rfl | rfl⟩ := hi hw
    all_goals
      cases h
      rw [State.pc, State.reg_setReg_self]
      exact branchWrite_aligned hpc a.imm24
  · obtain ⟨⟨hreg, -⟩, -⟩ := exec_keepsRest h
    rwa [State.pc, hreg _ hw]

/-- Settles O12: the executor leaves the program counter aligned, and the cycle adds 4. -/
theorem programCounterStaysAligned : Obligations.ProgramCounterStaysAligned := by
  intro s t w hpc hf hi h
  rcases step_cases h with ⟨-, rfl⟩ | ⟨-, w', hf', ⟨-, rfl⟩ | ⟨-, u, he, rfl⟩⟩
  · exact hpc
  · exact State.advancePc_pc_aligned hpc
  · obtain rfl : w = w' := Option.some.inj (hf.symm.trans hf')
    exact State.advancePc_pc_aligned (exec_pc_aligned hpc hi he)

/-! ### The halted state -/

theorem reaches_of_halted {s t : State} (hs : s.halted = true) (h : Reaches s t) : t = s := by
  induction h with
  | refl => rfl
  | next _ hstep ih =>
    rw [ih, step_of_halted hs] at hstep
    cases hstep
    rfl

/-- Settles O15: a halted core steps to itself. -/
theorem haltedStateIsTerminal : Obligations.HaltedStateIsTerminal := fun s hs =>
  ⟨fun t ht => ⟨s, by rw [reaches_of_halted hs ht, step_of_halted hs]⟩, fun _ ht => reaches_of_halted hs ht⟩

/-! ### The failed fetch and the stuck session -/

/-- The cycle of a step that faults (48_cycle_engine.md R210). -/
theorem cpuCycle_of_fault {s : State} {r : Fault} (h : step s = .fault r) :
    cpuCycle ⟨s, false⟩ = (.report .fatal, ⟨s, true⟩) := by simp [cpuCycle, h]

/-- Settles O16: the fetch answers nothing, so the step is its Fatal. -/
theorem unfetchableWordIsFatal : Obligations.UnfetchableWordIsFatal := by
  intro s hp hs hn
  have hf : fetch s = none := if_neg (Bool.eq_false_iff.1 ((accessible_eq_false_iff hp (by decide)).2 hn))
  have hstep : step s = .fault (.fatal .fetch (s.reg 15)) := step_of_no_fetch hs hf
  exact ⟨hstep, cpuCycle_of_fault hstep⟩

/-- A stuck session answers FATAL to every cycle (60_exceptions.md R233). -/
theorem cpuCycle_of_stuck {h : Session} (hs : h.stuck = true) : cpuCycle h = (.report .fatal, h) := if_pos hs

theorem reportOf_ne_fatal (s t : State) : reportOf s t ≠ .fatal := by
  unfold reportOf
  split_ifs <;> decide

theorem cpuCycle_of_report_fatal {h : Session} (hr : (cpuCycle h).1 = .report .fatal) :
    (cpuCycle h).2 = { h with stuck := true } := by
  obtain ⟨s, stuck⟩ := h
  cases stuck with
  | true => rfl
  | false =>
    rcases hstep : step s with t | r | r
    · rw [cpuCycle_of_next hstep] at hr
      exact absurd (Reply.report.inj hr) (reportOf_ne_fatal s t)
    · rw [cpuCycle_of_fault hstep]
    · exact absurd hstep (noStepIsRefused s r)

/-- No operation but the two resets clears the stuck bit. -/
theorem hostStep_stuck {op : HostOp} {h : Session} (hs : h.stuck = true) (hi : op ≠ .initialise)
    (hr : op ≠ .resetCpu) : (hostStep op h).2.stuck = true := by
  cases op with
  | initialise => exact absurd rfl hi
  | resetCpu => exact absurd rfl hr
  | cpuCycle =>
    have hkept : hostStep .cpuCycle h = (.report .fatal, h) := cpuCycle_of_stuck hs
    rw [hkept, hs]
  | getCpuState | setReg r v => exact hs
  | loadProgram words =>
    rcases hl : loadWords words 0 h.core with ⟨t, _ | addr⟩ <;> simp only [hostStep, hl, hs]
  | memRead32 a => rcases hm : h.core.memRead32 a with _ | v <;> simp only [hostStep, hm, hostFatal, hs]
  | memWrite32 a v => rcases hm : h.core.memWrite32 a v with _ | t <;> simp only [hostStep, hm, hostFatal, hs]
  | memRead8 a => rcases hm : h.core.memRead8 a with _ | b <;> simp only [hostStep, hm, hostFatal, hs]
  | memWrite8 a v =>
    rcases hm : h.core.memWrite8 a (v.extractLsb' 0 8) with _ | t <;> simp only [hostStep, hm, hostFatal, hs]

/-- Settles O54: a FATAL report sets the stuck bit and nothing else, and only a reset clears it. -/
theorem fatalLeavesTheSessionStuck : Obligations.FatalLeavesTheSessionStuck := by
  refine ⟨fun h hr => ?_, fun h hs => cpuCycle_of_stuck hs, fun _ _ hs hi hr => hostStep_stuck hs hi hr,
    fun _ => ⟨rfl, rfl⟩⟩
  have hafter : (hostStep .cpuCycle h).2 = { h with stuck := true } := cpuCycle_of_report_fatal hr
  rw [hafter]
  exact ⟨rfl, rfl⟩

end Sys2Proof.Machine
end

section
/-! The right shifts by an immediate amount and the shifts and rotations by a register amount (41_shifter_operand.md
R104, R105, R108 to R112) as the shifts of bit vectors, and the obligations about them. -/

namespace Sys2Proof.Machine

/-! ### The sign fill -/

/-- An arithmetic shift by 32 or more leaves copies of the sign bit (41_shifter_operand.md R105, R111). -/
theorem signFill_eq_sshiftRight (v : Word) {n : Nat} (hn : 32 ≤ n) : signFill v = v.sshiftRight n := by
  refine BitVec.eq_of_getLsbD_eq fun k hk => ?_
  have hover : ¬ n + k < 32 := by omega
  have hsign : (v.sshiftRight n).getLsbD k = v.getLsbD 31 := by
    rw [BitVec.getLsbD_sshiftRight, decide_eq_false hk.not_ge, if_neg hover, BitVec.msb_eq_getLsbD_last]
    rfl
  rw [hsign, signFill]
  cases v.getLsbD 31 with
  | false => exact BitVec.getLsbD_zero
  | true => exact BitVec.getLsbD_allOnes.trans (decide_eq_true hk)

/-- A signed shift right is a division rounded down. -/
theorem sshiftRight_toInt (v : Word) (n : Nat) : (v.sshiftRight n).toInt = v.toInt / (2 : Int) ^ n := by
  rw [BitVec.toInt_sshiftRight, Int.shiftRight_eq_div_pow]
  push_cast
  rfl

theorem ushiftRight_toNat (v : Word) (n : Nat) : (v >>> n).toNat = v.toNat / 2 ^ n := by
  rw [BitVec.toNat_ushiftRight, Nat.shiftRight_eq_div_pow]

/-! ### By an immediate amount -/

section Immediate

variable (v : Word) (n : Nat) (c : Bool)

/-- The amount of a right shift by an immediate: 0 means 32. -/
def rightAmount (n : Nat) : Nat := if n = 0 then 32 else n

theorem shiftByImm_lsr : shiftByImm .lsr v n c = ⟨v >>> rightAmount n, v.getLsbD (rightAmount n - 1)⟩ := by
  by_cases h : n = 0
  · have hzero : v >>> 32 = 0#32 := BitVec.ushiftRight_eq_zero (by decide)
    simp [shiftByImm, rightAmount, h, hzero]
  · simp [shiftByImm, rightAmount, h]

theorem shiftByImm_asr : shiftByImm .asr v n c = ⟨v.sshiftRight (rightAmount n), v.getLsbD (rightAmount n - 1)⟩ := by
  by_cases h : n = 0
  · simp [shiftByImm, rightAmount, h, signFill_eq_sshiftRight v (Nat.le_refl 32)]
  · simp [shiftByImm, rightAmount, h]

end Immediate

/-- Settles O26: both are shifts by the amount, with 32 for 0, and the carry-out is the last bit shifted out. -/
theorem rightShiftsByImmediate : Obligations.RightShiftsByImmediate := by
  intro n rm s v m l r
  have hl : l = ⟨v >>> m, v.getLsbD (m - 1)⟩ := shiftByImm_lsr v n.toNat (s.flag .c)
  have hr : r = ⟨v.sshiftRight m, v.getLsbD (m - 1)⟩ := shiftByImm_asr v n.toNat (s.flag .c)
  rw [hl, hr]
  exact ⟨ushiftRight_toNat v m, rfl, sshiftRight_toInt v m, rfl⟩

/-! ### By a register amount -/

section Register

variable (v : Word) (n : Nat) (c : Bool)

theorem shiftByReg_zero (y : ShiftType) : shiftByReg y v 0 c = ⟨v, c⟩ := rfl

theorem shiftByReg_lsl_value : (shiftByReg .lsl v n c).value = v <<< n := by
  by_cases h0 : n = 0
  · simp [shiftByReg, h0]
  · by_cases h : n < 32
    · simp [shiftByReg, h0, h]
    · have hzero : v <<< n = 0#32 := BitVec.shiftLeft_eq_zero (Nat.le_of_not_lt h)
      simp [shiftByReg, h0, h, hzero]

theorem shiftByReg_lsr_value : (shiftByReg .lsr v n c).value = v >>> n := by
  by_cases h0 : n = 0
  · simp [shiftByReg, h0]
  · by_cases h : n < 32
    · simp [shiftByReg, h0, h]
    · have hzero : v >>> n = 0#32 := BitVec.ushiftRight_eq_zero (Nat.le_of_not_lt h)
      simp [shiftByReg, h0, h, hzero]

theorem shiftByReg_asr_value : (shiftByReg .asr v n c).value = v.sshiftRight n := by
  by_cases h0 : n = 0
  · simp [shiftByReg, h0]
  · by_cases h : n < 32
    · simp [shiftByReg, h0, h]
    · simp [shiftByReg, h0, h, signFill_eq_sshiftRight v (Nat.le_of_not_lt h)]

theorem rotateRight_zero : v.rotateRight 0 = v :=
  BitVec.eq_of_getLsbD_eq fun k hk => by
    rw [getLsbD_rotateRight_word v (by decide) hk, Nat.add_zero, Nat.mod_eq_of_lt hk]

/-- A rotation depends on the amount modulo 32 (41_shifter_operand.md R112). -/
theorem shiftByReg_ror_value : (shiftByReg .ror v n c).value = v.rotateRight (n % 32) := by
  by_cases h0 : n = 0
  · simp [shiftByReg, h0, rotateRight_zero]
  · by_cases h : n % 32 = 0
    · simp [shiftByReg, h0, h, rotateRight_zero]
    · simp [shiftByReg, h0, h]

variable {n}

theorem shiftByReg_lsl_carry (h0 : 0 < n) (h : n < 32) : (shiftByReg .lsl v n c).carry = v.getLsbD (32 - n) := by
  simp [shiftByReg, h0.ne', h]

theorem shiftByReg_lsl_carry_of_ge (h : 32 ≤ n) : (shiftByReg .lsl v n c).carry = false := by
  simp [shiftByReg, show n ≠ 0 by omega, h.not_gt]

theorem shiftByReg_lsr_carry (h0 : 0 < n) (h : n < 32) : (shiftByReg .lsr v n c).carry = v.getLsbD (n - 1) := by
  simp [shiftByReg, h0.ne', h]

theorem shiftByReg_lsr_carry_of_ge (h : 32 ≤ n) : (shiftByReg .lsr v n c).carry = false := by
  simp [shiftByReg, show n ≠ 0 by omega, h.not_gt]

theorem shiftByReg_asr_carry (h0 : 0 < n) : (shiftByReg .asr v n c).carry = v.getLsbD (min n 32 - 1) := by
  by_cases h : n < 32
  · have hmin : min n 32 = n := by omega
    simp [shiftByReg, h0.ne', h, hmin]
  · have hmin : min n 32 = 32 := by omega
    simp [shiftByReg, h0.ne', h, hmin]

/-- The carry-out of a rotation is the bit that enters at bit 31 (41_shifter_operand.md R112). -/
theorem shiftByReg_ror_carry (h0 : 0 < n) :
    (shiftByReg .ror v n c).carry = (v.rotateRight (n % 32)).getLsbD 31 := by
  by_cases h : n % 32 = 0
  · simp [shiftByReg, h0.ne', h]
  · have hlast := getLsbD_31_rotateRight v h (Nat.mod_lt n (by decide))
    simp [shiftByReg, h0.ne', h, ← hlast]

end Register

/-- The amount is the low byte of the register (41_shifter_operand.md R108). -/
theorem shifterOperand_shiftReg (rs rm : RegNum) (b : Bool) (y : ShiftType) (s : State) :
    shifterOperand (.shiftReg rs b y rm) s = shiftByReg y (s.reg rm) ((s.reg rs).toNat % 256) (s.flag .c) := by
  have hamount : ((s.reg rs).extractLsb' 0 8).toNat = (s.reg rs).toNat % 256 := by simp
  rw [← hamount]
  rfl

/-- Settles O27: LSL and LSR are the shifts of words by the amount, and their carry-outs the last bit shifted out. -/
theorem logicalShiftsByRegister : Obligations.LogicalShiftsByRegister := by
  intro rs rm b s v n l r
  have hl : l = shiftByReg .lsl v n (s.flag .c) := shifterOperand_shiftReg rs rm b .lsl s
  have hr : r = shiftByReg .lsr v n (s.flag .c) := shifterOperand_shiftReg rs rm b .lsr s
  rw [hl, hr]
  refine ⟨fun hn y => ?zero, ?multiplication, shiftByReg_lsl_carry v _, shiftByReg_lsl_carry_of_ge v _, ?division,
    shiftByReg_lsr_carry v _, shiftByReg_lsr_carry_of_ge v _⟩
  case zero =>
    have hy : shifterOperand (.shiftReg rs b y rm) s = ⟨v, s.flag .c⟩ := by
      calc shifterOperand (.shiftReg rs b y rm) s = shiftByReg y v n (s.flag .c) := shifterOperand_shiftReg rs rm b y s
        _ = ⟨v, s.flag .c⟩ := by rw [hn, shiftByReg_zero]
    rw [hy]
    exact ⟨rfl, rfl⟩
  case multiplication => rw [shiftByReg_lsl_value, BitVec.toNat_shiftLeft, Nat.shiftLeft_eq]
  case division => rw [shiftByReg_lsr_value, ushiftRight_toNat]

/-- Settles O28: ASR is the signed shift by the amount, ROR the rotation by the amount modulo 32. -/
theorem arithmeticShiftAndRotateByRegister : Obligations.ArithmeticShiftAndRotateByRegister := by
  intro rs rm b s v n a r
  have ha : a = shiftByReg .asr v n (s.flag .c) := shifterOperand_shiftReg rs rm b .asr s
  have hr : r = shiftByReg .ror v n (s.flag .c) := shifterOperand_shiftReg rs rm b .ror s
  have hn : n % 32 < 32 := Nat.mod_lt n (by decide)
  rw [ha, hr, shiftByReg_asr_value, shiftByReg_ror_value]
  refine ⟨sshiftRight_toInt v n, shiftByReg_asr_carry v _, fun k hk => ?_, shiftByReg_ror_carry v _⟩
  rw [getLsbD_rotateRight_word v hn hk, Nat.add_mod_mod]

end Sys2Proof.Machine
end

section
/-! The tests and the compares (47_data_processing.md R168, R178 to R181), the subtractions with carry (R176, R177,
R187) and the adder's overflow as a rule about signs (R166); and the obligations about them. -/

namespace Sys2Proof.Machine

open Sys2Proof.Claims

/-! ### Tests -/

/-- A test is known by the bits of its result: the flag update has the rest (R169). -/
theorem testOutcome_of_bits {a : DpArgs} {s : State} {r : Word} {f : Bool → Bool → Bool}
    (hbits : ∀ k < 32, r.getLsbD k = f ((s.reg a.rn).getLsbD k) ((shifterOperand a.op2 s).value.getLsbD k)) :
    TestOutcome (.next (s.setLogicFlags r (shifterOperand a.op2 s).carry)) a s f :=
  ⟨_, r, rfl, hbits, nzOf_of_flags (s.setLogicFlags_flag r _ .n) (s.setLogicFlags_flag r _ .z),
    s.setLogicFlags_flag r _ .c, s.setLogicFlags_frame r _⟩

/-- Settles O31: TST and TEQ update the flags by the bits of AND and EOR. -/
theorem testInstructions : Obligations.TestInstructions := fun _ _ =>
  ⟨testOutcome_of_bits fun _ _ => BitVec.getLsbD_and, testOutcome_of_bits fun _ _ => BitVec.getLsbD_xor⟩

/-! ### Subtraction with carry -/

/-- Settles O34: SBC and RSC are one sum, `a + NOT b + C`, with the operands exchanged. -/
theorem subtractionWithCarryInstructions : Obligations.SubtractionWithCarryInstructions := fun a s =>
  ⟨arithmeticOutcome_of_computes (addWithCarry_not_computes (s.reg a.rn) (shifterOperand a.op2 s).value (s.flag .c)),
    arithmeticOutcome_of_computes (addWithCarry_not_computes (shifterOperand a.op2 s).value (s.reg a.rn) (s.flag .c))⟩

/-! ### Compares -/

/-- A compare is known by what its sum computes: the flag update has the rest (R167). -/
theorem compareOutcome_of_computes {s : State} {sum : Sum} {u : Nat} {carry : Prop} {x : Int}
    (h : sum.Computes u carry x) : CompareOutcome (.next (s.setArithFlags sum)) s u carry x := by
  obtain ⟨hresult, hcarry, hoverflow⟩ := h
  refine ⟨_, sum.result, rfl, hresult, nzOf_of_flags (s.setArithFlags_flag sum .n) (s.setArithFlags_flag sum .z),
    ?carry, ?overflow, s.setArithFlags_frame sum⟩
  case carry => rwa [State.setArithFlags_flag]
  case overflow => rwa [State.setArithFlags_flag]

/-- Settles O35: CMP and CMN update the flags by the sums of SUB and ADD. -/
theorem compareInstructions : Obligations.CompareInstructions := fun a s =>
  ⟨compareOutcome_of_computes (addWithCarry_not_true_computes (s.reg a.rn) (shifterOperand a.op2 s).value),
    compareOutcome_of_computes (addWithCarry_false_computes (s.reg a.rn) (shifterOperand a.op2 s).value)⟩

/-! ### Overflow -/

theorem getLsbD_31_eq_neg (x : Word) : x.getLsbD 31 = decide (x.toInt < 0) := by
  rw [← BitVec.msb_eq_toInt, BitVec.msb_eq_getLsbD_last]

/-- Settles O36: operands of different signs cannot leave the range, and operands of the same sign leave it exactly when
the sum, brought into range, has the other sign. -/
theorem overflowDefinitionsAgree : Obligations.OverflowDefinitionsAgree := by
  intro a b c r
  have hresult : r.result.toInt = (a.toInt + b.toInt + (c.toNat : Int)).bmod (2 ^ 32) := addWithCarry_result_toInt a b c
  have hover : r.overflow = true ↔ SignedOverflow (a.toInt + b.toInt + (c.toNat : Int)) :=
    addWithCarry_overflow_iff a b c
  have hc : c.toNat ≤ 1 := c.toNat_le
  have ha := a.toInt_lt
  have ha' := a.le_toInt
  have hb := b.toInt_lt
  have hb' := b.le_toInt
  rw [Bool.eq_iff_iff, hover, SignedOverflow, getLsbD_31_eq_neg, getLsbD_31_eq_neg, getLsbD_31_eq_neg, hresult,
    Int.bmod_def]
  generalize a.toInt = x at *
  generalize b.toInt = y at *
  simp only [Bool.and_eq_true, beq_iff_eq, bne_iff_ne, ne_eq, decide_eq_decide]
  split <;> omega

end Sys2Proof.Machine
end

section
/-! The carry chains of two words (47_data_processing.md section 3), and the obligation about them. -/

namespace Sys2Proof.Machine

open Sys2Proof.Claims

/-- Two arithmetic instructions, the second fed by the carry of the first, compute what their two sums spell. -/
theorem doubleWord_of_sums {low high : DpArgs → Instr} {f : BitVec 64 → BitVec 64 → BitVec 64}
    {first : Word → Word → Sum} {second : Word → Word → Bool → Sum}
    (hlow : ∀ a s, exec (low a) s = .next (arithmeticWrite a (first (s.reg a.rn) (shifterOperand a.op2 s).value) s))
    (hhigh : ∀ b t, exec (high b) t =
      .next (arithmeticWrite b (second (t.reg b.rn) (shifterOperand b.op2 t).value (t.flag .c)) t))
    (hf : ∀ x y x' y', (second x' y' (first x y).carry).result ++ (first x y).result = f (x' ++ x) (y' ++ y)) :
    DoubleWord low high f := by
  intro a b s hs
  have hcarry (sum : Sum) : (arithmeticWrite a sum s).flag .c = sum.carry := by
    rw [arithmeticWrite_flag_of_s a s sum hs, State.setArithFlags_flag]
  refine ⟨_, _, hlow a s, hhigh b _, ?halves, fun hne => ?lowKept, fun hne => ?operandKept⟩
  case halves => rw [arithmeticWrite_reg_self, arithmeticWrite_reg_self, hcarry, hf]
  case lowKept => rw [arithmeticWrite_reg, if_neg hne]
  case operandKept => rw [arithmeticWrite_reg, if_neg hne]

theorem toNat_append_words (x y : Word) : (x ++ y).toNat = x.toNat * 2 ^ 32 + y.toNat := by
  rw [BitVec.toNat_append, ← Nat.shiftLeft_add_eq_or_of_lt y.isLt, Nat.shiftLeft_eq]

/-- A carry-out as the carry-in of the next sum. -/
theorem toNat_eq_ite {c : Bool} {p : Prop} [Decidable p] (h : c = true ↔ p) : c.toNat = if p then 1 else 0 := by
  cases c <;> simp_all

variable (x y x' y' : Word)

theorem addWithCarry_chain :
    (addWithCarry x' y' (addWithCarry x y false).carry).result ++ (addWithCarry x y false).result =
      (x' ++ x) + (y' ++ y) := by
  obtain ⟨hlow, hcarry, -⟩ := addWithCarry_false_computes x y
  obtain ⟨hhigh, -⟩ := addWithCarry_computes x' y' (addWithCarry x y false).carry
  rw [toNat_eq_ite hcarry] at hhigh
  apply BitVec.eq_of_toNat_eq
  rw [BitVec.toNat_add, toNat_append_words, toNat_append_words, toNat_append_words, hlow, hhigh]
  split <;> omega

theorem addWithCarry_not_chain :
    (addWithCarry x' (~~~y') (addWithCarry x (~~~y) true).carry).result ++ (addWithCarry x (~~~y) true).result =
      (x' ++ x) - (y' ++ y) := by
  obtain ⟨hlow, hcarry, -⟩ := addWithCarry_not_true_computes x y
  obtain ⟨hhigh, -⟩ := addWithCarry_not_computes x' y' (addWithCarry x (~~~y) true).carry
  rw [toNat_eq_ite hcarry] at hhigh
  apply BitVec.eq_of_toNat_eq
  rw [BitVec.toNat_sub, toNat_append_words, toNat_append_words, toNat_append_words, hlow, hhigh]
  split <;> omega

/-- Settles O37: the carry of the low words is the carry-in of the high ones, and for subtraction its absence the
borrow. -/
theorem carryChainsAreDoubleWordArithmetic : Obligations.CarryChainsAreDoubleWordArithmetic :=
  ⟨doubleWord_of_sums (first := fun x y => addWithCarry x y false) (second := addWithCarry) (fun _ _ => rfl)
      (fun _ _ => rfl) addWithCarry_chain,
    doubleWord_of_sums (first := fun x y => addWithCarry x (~~~y) true)
      (second := fun x y c => addWithCarry x (~~~y) c) (fun _ _ => rfl) (fun _ _ => rfl) addWithCarry_not_chain⟩

end Sys2Proof.Machine
end

section
/-! MUL and MLA (44_multiply.md R145 to R147), B and BL (45_branch.md R150, R151), the branch that an assembler makes
for a target (30_encoding.md R83); and the obligations about them. -/

namespace Sys2Proof.Machine

open Sys2Proof.Claims

/-! ### Multiply -/

theorem multiplyWrite_nzOf {a : MulArgs} (s : State) (r : Word) (h : a.s = true) : NZOf (multiplyWrite a r s) r := by
  refine nzOf_of_flags ?_ ?_
  · rw [multiplyWrite_flag s r a .n (by decide), if_pos h, State.setMulFlags_flag s r .n (by decide)]
  · rw [multiplyWrite_flag s r a .z (by decide), if_pos h, State.setMulFlags_flag s r .z (by decide)]

/-- A multiply is known by its natural number: the write has the rest (R147). -/
theorem multiplyOutcome_of_nat (a : MulArgs) (s : State) (u : Nat) :
    MultiplyOutcome (.next (multiplyWrite a (BitVec.ofNat 32 u) s)) a s u := by
  refine ⟨_, BitVec.ofNat 32 u, rfl, BitVec.toNat_ofNat u 32, ?destination, fun hs => multiplyWrite_nzOf s _ hs,
    multiplyWrite_claimsFrame s _ a⟩
  case destination => rw [multiplyWrite_reg, if_pos rfl]

/-- Settles O38: both are the write of a natural number modulo 2^32. -/
theorem multiplyInstructions : Obligations.MultiplyInstructions := fun a s =>
  ⟨multiplyOutcome_of_nat a s _, multiplyOutcome_of_nat a s _⟩

/-! ### Branches -/

theorem State.reg_15_setReg_pcIndex (s : State) (v : Word) : (s.setReg Config.pcIndex v).reg 15 = v :=
  s.reg_setReg_self Config.pcIndex v

/-- The target, with the 4 that the cycle adds (45_branch.md R150). -/
theorem branchWrite_target (imm24 : BitVec 24) (s : State) :
    ((branchWrite imm24 s).toNat + 4 : Int) % 2 ^ 32 = ((s.reg 15).toNat + 8 + 4 * imm24.toInt) % 2 ^ 32 := by
  have hbias : (branchBias - instrBytes).toNat = 4 := rfl
  have hpc : s.pc = s.reg 15 := rfl
  have hoff : (branchOffset imm24).toInt = 4 * imm24.toInt := branchOffset_toInt imm24
  rw [branchWrite, BitVec.toNat_add, BitVec.toNat_add, hbias, hpc, ← hoff, BitVec.toInt_eq_toNat_cond]
  split <;> omega

/-- Settles O39: the executor writes the target less 4, and BL the link register first. -/
theorem branchInstructions : Obligations.BranchInstructions := by
  intro a s
  refine ⟨⟨_, rfl, ?_, s.setReg_frame 15 _⟩, ⟨_, rfl, ?_, ?_, s.setReg_setReg_frame 14 15 _ _⟩⟩
  · rw [State.reg_15_setReg_pcIndex, branchWrite_target]
  · rw [State.reg_15_setReg_pcIndex, branchWrite_target]
  · rw [State.reg_setReg_of_ne _ _ _ _ (by decide)]
    exact s.reg_setReg_self Config.lrIndex _

/-! ### The assembled branch -/

/-- A distance in range is what the immediate field makes of it again (30_encoding.md R75, R83). -/
theorem branchOffset_extract {d : Word} (h4 : d.toNat % 4 = 0) (hlo : -2 ^ 25 ≤ d.toInt) (hhi : d.toInt < 2 ^ 25) :
    branchOffset (d.extractLsb' 2 24) = d := by
  have himm : (d.extractLsb' 2 24).toNat = d.toNat / 4 % 2 ^ 24 := by
    rw [BitVec.extractLsb'_toNat, Nat.shiftRight_eq_div_pow]
  apply BitVec.eq_of_toInt_eq
  rw [branchOffset_toInt, BitVec.toInt_eq_toNat_cond, himm]
  rw [BitVec.toInt_eq_toNat_cond] at hlo hhi ⊢
  split <;> split at hlo <;> omega

/-- Settles O58: the field holds the distance from 8 bytes after the branch, which the executor adds again. -/
theorem assembledBranchReachesItsTarget : Obligations.AssembledBranchReachesItsTarget := by
  intro s c target h4 hlo hhi
  have haligned : (target - s.reg 15 - 8#32).toNat % 4 = 0 := by
    rw [BitVec.toNat_sub, BitVec.toNat_ofNat]
    omega
  have hoff : branchOffset (assembleTarget (s.reg 15) target) = target - s.reg 15 - 8#32 :=
    branchOffset_extract haligned hlo hhi
  refine ⟨_, _, rfl, rfl, ?_⟩
  calc (s.setReg Config.pcIndex (branchWrite (assembleTarget (s.reg 15) target) s)).reg 15 + 4#32
      = branchWrite (assembleTarget (s.reg 15) target) s + 4#32 := by rw [State.reg_15_setReg_pcIndex]
    _ = s.reg 15 + (target - s.reg 15 - 8#32) + 4#32 + 4#32 := by rw [branchWrite, hoff]; rfl
    _ = target := by bv_omega

end Sys2Proof.Machine
end

section
/-! The memory primitives (20_memory.md sections 1 and 2): when they succeed, and what the bytes and the words are after
a write; and the obligations about them. -/

namespace Sys2Proof.Machine

open Sys2Proof.Claims

/-! ### Success -/

section Success

variable (s : State) (a v : Word) (b : Byte)

theorem State.memRead32_isSome : (s.memRead32 a).isSome = accessible s.params a.toNat 4 := by
  unfold State.memRead32
  cases accessible s.params a.toNat 4 <;> rfl

theorem State.memRead8_isSome : (s.memRead8 a).isSome = accessible s.params a.toNat 1 := by
  unfold State.memRead8
  cases accessible s.params a.toNat 1 <;> rfl

theorem State.memWrite32_isSome : (s.memWrite32 a v).isSome = accessible s.params a.toNat 4 := by
  unfold State.memWrite32
  cases accessible s.params a.toNat 4 <;> rfl

theorem State.memWrite8_isSome : (s.memWrite8 a b).isSome = accessible s.params a.toNat 1 := by
  unfold State.memWrite8
  cases accessible s.params a.toNat 1 <;> rfl

end Success

/-- Settles O49: each primitive asks whether its bytes are accessible, which is to lie in one region. -/
theorem accessesSucceedExactlyInsideOneRegion : Obligations.AccessesSucceedExactlyInsideOneRegion := by
  intro s a v b hp
  rw [State.memRead32_isSome, State.memWrite32_isSome, State.memRead8_isSome, State.memWrite8_isSome]
  exact ⟨accessible_iff hp (by decide), accessible_iff hp (by decide), accessible_iff hp (by decide),
    accessible_iff hp (by decide)⟩

/-! ### The bytes of a word -/

theorem byteOfWord_toNat (v : Word) {k : Nat} (hk : k < 4) :
    (byteOfWord v k).toNat = v.toNat / 256 ^ (3 - k) % 256 := by
  rw [byteOfWord, BitVec.extractLsb'_toNat, Nat.shiftRight_eq_div_pow]
  interval_cases k <;> rfl

theorem State.memRead32_writeWord {s : State} {a : Word} (hacc : accessible s.params a.toNat 4 = true)
    (hm : Memory.wf s.mem) (v : Word) : (s.setMem (Memory.writeWord s.mem a.toNat v)).memRead32 a = some v :=
  State.memRead32_eq_some.2 ⟨hacc, Memory.readWord_writeWord hm _ v⟩

section Written

variable {s : State} {a : Word} (hp : s.params.wf) (hacc : accessible s.params a.toNat 4 = true)
include hp hacc

/-- The bytes of an access do not wrap (20_memory.md R40). -/
theorem byteAddr_toNat {k : Nat} (hk : k < 4) : (byteAddr a k).toNat = a.toNat + k := by
  have htop := lt_of_accessible hp (by decide) hacc
  rw [byteAddr, BitVec.toNat_ofNat]
  omega

theorem accessible_byteAddr {k : Nat} (hk : k < 4) : accessible s.params (byteAddr a k).toNat 1 = true := by
  have hin := (accessible_iff hp (by decide)).1 hacc
  rw [accessible_iff hp (by decide), byteAddr_toNat hp hacc hk]
  omega

variable (hm : Memory.wf s.mem) (v : Word)
include hm

theorem State.memRead8_writeWord {k : Nat} (hk : k < 4) :
    (s.setMem (Memory.writeWord s.mem a.toNat v)).memRead8 (byteAddr a k) = some (byteOfWord v k) := by
  have haddr := byteAddr_toNat hp hacc hk
  refine State.memRead8_eq_some.2 ⟨accessible_byteAddr hp hacc hk, ?_⟩
  rw [State.setMem_mem, Memory.read_writeWord hm, haddr, if_pos (by omega), Nat.add_sub_cancel_left]

/-- Byte `k` of the word in memory, as a number. -/
theorem State.memRead8_writeWord_toNat {k : Nat} (hk : k < 4) :
    ∃ b, (s.setMem (Memory.writeWord s.mem a.toNat v)).memRead8 (byteAddr a k) = some b ∧
      b.toNat = v.toNat / 256 ^ (3 - k) % 256 :=
  ⟨_, State.memRead8_writeWord hp hacc hm v hk, byteOfWord_toNat v hk⟩

theorem State.memRead8_writeWord_of_ne {b : Word} (hb : ∀ k < 4, b ≠ byteAddr a k) :
    (s.setMem (Memory.writeWord s.mem a.toNat v)).memRead8 b = s.memRead8 b := by
  have hout : ¬ (a.toNat ≤ b.toNat ∧ b.toNat < a.toNat + 4) := fun ⟨hlo, hhi⟩ => by
    refine hb (b.toNat - a.toNat) (by omega) (BitVec.eq_of_toNat_eq ?_)
    rw [byteAddr_toNat hp hacc (by omega)]
    omega
  rw [State.memRead8, State.memRead8, State.setMem_params, State.setMem_mem, Memory.read_writeWord hm, if_neg hout]

end Written

/-- Settles O50: the word is written where it is accessible, and its bytes are those of the memory's law. -/
theorem wordWriteReadsBackBigEndian : Obligations.WordWriteReadsBackBigEndian := by
  intro s a v hp hm hin
  have hacc : accessible s.params a.toNat 4 = true := (accessible_iff hp (by decide)).2 hin
  exact ⟨_, State.memWrite32_eq_some.2 ⟨hacc, rfl⟩, State.memRead32_writeWord hacc hm v,
    fun k hk => State.memRead8_writeWord_toNat hp hacc hm v hk,
    fun b hb => State.memRead8_writeWord_of_ne hp hacc hm v hb⟩

/-! ### A word from its bytes -/

/-- Four byte writes at rising addresses leave the word that they spell. -/
theorem Memory.readWord_write_four {m : Memory} (h : Memory.wf m) (a : Nat) (b0 b1 b2 b3 : Byte) :
    Memory.readWord (Memory.write (Memory.write (Memory.write (Memory.write m a b0) (a + 1) b1) (a + 2) b2)
      (a + 3) b3) a = wordOfBytes b0 b1 b2 b3 := by
  have h0 := Memory.write_wf h a b0
  have h1 := Memory.write_wf h0 (a + 1) b1
  have h2 := Memory.write_wf h1 (a + 2) b2
  simp [Memory.readWord, Memory.read_write h2, Memory.read_write h1, Memory.read_write h0, Memory.read_write h]

/-- Settles O51: the four addresses are accessible, one by one, and the memory's law reads the bytes back. -/
theorem byteWritesMakeTheWord : Obligations.ByteWritesMakeTheWord := by
  intro s a b0 b1 b2 b3 hp hm hin
  have hacc : accessible s.params a.toNat 4 = true := (accessible_iff hp (by decide)).2 hin
  have hbyte {k : Nat} (hk : k < 4) : accessible s.params (byteAddr a k).toNat 1 = true :=
    accessible_byteAddr hp hacc hk
  have hzero : accessible s.params a.toNat 1 = true := by
    simpa [byteAddr_toNat hp hacc] using hbyte (k := 0) (by decide)
  refine ⟨_, _, _, _, State.memWrite8_eq_some.2 ⟨hzero, rfl⟩,
    State.memWrite8_eq_some.2 ⟨hbyte (by decide), rfl⟩, State.memWrite8_eq_some.2 ⟨hbyte (by decide), rfl⟩,
    State.memWrite8_eq_some.2 ⟨hbyte (by decide), rfl⟩, State.memRead32_eq_some.2 ⟨hacc, ?_⟩⟩
  simp only [State.setMem_mem, byteAddr_toNat hp hacc (k := 1) (by decide),
    byteAddr_toNat hp hacc (k := 2) (by decide), byteAddr_toNat hp hacc (k := 3) (by decide)]
  exact Memory.readWord_write_four hm a.toNat b0 b1 b2 b3

end Sys2Proof.Machine
end

section
/-! LDR, LDRB, STR and STRB (46_load_store.md R155 to R159) at an address that they can and cannot access, and the
obligations about them. -/

namespace Sys2Proof.Machine

open Sys2Proof.Claims

section Executor

variable {a : LsArgs} {s n : State} {addr : Word} (hr : resolveAddress a s = .access addr n)
include hr

/-! ### The access

Each instruction is its access at the resolved address, and Fatal there if the bytes are not accessible. -/

theorem exec_ldr_of_access :
    exec (.ldr a) s = if accessible s.params addr.toNat 4 then
      .next (n.setReg a.rd (Memory.readWord s.mem addr.toNat)) else .fault (.fatal .load addr) := by
  rw [show exec (.ldr a) s = execLdr a s from rfl, execLdr, loadStore_of_access hr, State.memRead32]
  cases accessible s.params addr.toNat 4 <;> rfl

theorem exec_ldrb_of_access :
    exec (.ldrb a) s = if accessible s.params addr.toNat 1 then
      .next (n.setReg a.rd ((Memory.read s.mem addr.toNat).zeroExtend 32)) else .fault (.fatal .load addr) := by
  rw [show exec (.ldrb a) s = execLdrb a s from rfl, execLdrb, loadStore_of_access hr, State.memRead8]
  cases accessible s.params addr.toNat 1 <;> rfl

theorem exec_str_of_access :
    exec (.str a) s = if accessible n.params addr.toNat 4 then
      .next (n.setMem (Memory.writeWord n.mem addr.toNat (s.reg a.rd))) else .fault (.fatal .store addr) := by
  rw [show exec (.str a) s = execStr a s from rfl, execStr, loadStore_of_access hr, State.memWrite32]
  cases accessible n.params addr.toNat 4 <;> rfl

theorem exec_strb_of_access :
    exec (.strb a) s = if accessible n.params addr.toNat 1 then
      .next (n.setMem (Memory.write n.mem addr.toNat ((s.reg a.rd).extractLsb' 0 8)))
      else .fault (.fatal .store addr) := by
  rw [show exec (.strb a) s = execStrb a s from rfl, execStrb, loadStore_of_access hr, State.memWrite8]
  cases accessible n.params addr.toNat 1 <;> rfl

/-! ### The base -/

/-- The base written back is the moved one (42_address_resolver.md R126). -/
theorem resolveAddress_base (h : a.p = a.w) : n.reg a.rn = movedBase a s := by
  rcases resolveAddress_access hr with ⟨hp, hw, -⟩ | ⟨-, rfl⟩
  · rw [hp, hw] at h
    cases h
  · exact s.reg_setReg_self a.rn _

/-- A load leaves the base written back, where it is not its destination. -/
theorem load_base (h : a.p = a.w) (hne : a.rn ≠ a.rd) (v : Word) : (n.setReg a.rd v).reg a.rn = movedBase a s := by
  rw [State.reg_setReg_of_ne _ _ _ _ hne, resolveAddress_base hr h]

/-- A load changes its destination and the base (46_load_store.md R155, R156). -/
theorem load_frame (v : Word) : Frame s (n.setReg a.rd v) (a.rd :: basesWritten a) [] := by
  obtain ⟨⟨hreg, hflag, hlow, hparams⟩, hmem, -⟩ := keepsRest_load hr (i := .ldr a) (.inl rfl) v
  have hkept : (n.setReg a.rd v).mem = s.mem := hmem (by rintro ⟨b, hb | hb⟩ <;> cases hb)
  have hhalted := resolveAddress_halted hr
  exact ⟨hreg, hflag, hlow, hhalted, hparams, State.memRead8_congr hparams hkept⟩

/-- A store changes the base and the memory (46_load_store.md R157, R158). -/
theorem store_keeps (m : Memory) :
    (a.p = a.w → (n.setMem m).reg a.rn = movedBase a s) ∧ (∀ q, q ∉ basesWritten a → (n.setMem m).reg q = s.reg q) ∧
    (n.setMem m).cpsr = s.cpsr ∧ (n.setMem m).halted = s.halted ∧ (n.setMem m).params = s.params := by
  obtain ⟨hcpsr, hhalted, -, hparams, -⟩ := resolveAddress_keeps hr
  obtain ⟨hreg, -⟩ := resolveAddress_writesOnly hr
  have hbase := resolveAddress_base hr
  exact ⟨hbase, hreg, hcpsr, hhalted, hparams⟩

theorem resolveAddress_mem : n.mem = s.mem ∧ n.params = s.params := by
  obtain ⟨-, -, hmem, hparams, -⟩ := resolveAddress_keeps hr
  exact ⟨hmem, hparams⟩

end Executor

/-! ### Loads -/

theorem wordOfBytes_toNat (b0 b1 b2 b3 : Byte) :
    (wordOfBytes b0 b1 b2 b3).toNat = b0.toNat * 2 ^ 24 + b1.toNat * 2 ^ 16 + b2.toNat * 2 ^ 8 + b3.toNat := by
  have hjoin {w : Nat} (x : BitVec w) (y : Byte) : (x ++ y).toNat = x.toNat * 2 ^ 8 + y.toNat := by
    rw [BitVec.toNat_append, ← Nat.shiftLeft_add_eq_or_of_lt y.isLt, Nat.shiftLeft_eq]
  have hword : (wordOfBytes b0 b1 b2 b3).toNat = (b0 ++ b1 ++ b2 ++ b3).toNat := rfl
  rw [hword, hjoin, hjoin, hjoin]
  omega

/-- Settles O43: the load is the resolver's next state with the word in Rd. -/
theorem loadWord : Obligations.LoadWord := by
  intro a s n addr hp hr hin
  have hacc : accessible s.params addr.toNat 4 = true := (accessible_iff hp (by decide)).2 hin
  refine ⟨_, (exec_ldr_of_access hr).trans (if_pos hacc), ?_, fun h hne => load_base hr h hne _, load_frame hr _⟩
  rw [State.reg_setReg_self, Memory.readWord, wordOfBytes_toNat]

/-- Settles O44: the load is the resolver's next state with the byte in Rd. -/
theorem loadByte : Obligations.LoadByte := by
  intro a s n addr hp hr hin
  have hacc : accessible s.params addr.toNat 1 = true := (accessible_iff hp (by decide)).2 hin
  refine ⟨_, (exec_ldrb_of_access hr).trans (if_pos hacc), ?_, fun h hne => load_base hr h hne _, load_frame hr _⟩
  rw [State.reg_setReg_self]
  exact BitVec.toNat_setWidth_of_le (by decide)

/-! ### Stores -/

/-- Settles O45: the store is the resolver's next state with the word written into its memory. -/
theorem storeWord : Obligations.StoreWord := by
  intro a s n addr hp hm hr hin
  obtain ⟨hmem, hparams⟩ := resolveAddress_mem hr
  have hpn : n.params.wf := hparams ▸ hp
  have hmn : Memory.wf n.mem := hmem ▸ hm
  have hacc : accessible n.params addr.toNat 4 = true := (accessible_iff hpn (by decide)).2 (hparams ▸ hin)
  refine ⟨_, (exec_str_of_access hr).trans (if_pos hacc), fun k hk => State.memRead8_writeWord_toNat hpn hacc hmn _ hk,
    fun b hb => ?_, store_keeps hr _⟩
  rw [State.memRead8_writeWord_of_ne hpn hacc hmn _ hb, State.memRead8_congr hparams hmem]

theorem State.memRead8_write (s : State) {a : Word} (hm : Memory.wf s.mem) (v : Byte) (b : Word) :
    (s.setMem (Memory.write s.mem a.toNat v)).memRead8 b =
      if accessible s.params b.toNat 1 then some (if b = a then v else Memory.read s.mem b.toNat) else none := by
  simp only [State.memRead8, State.setMem_params, State.setMem_mem, Memory.read_write hm, BitVec.toNat_inj]

/-- Settles O46: the store is the resolver's next state with the byte written into its memory. -/
theorem storeByte : Obligations.StoreByte := by
  intro a s n addr hp hm hr hin
  obtain ⟨hmem, hparams⟩ := resolveAddress_mem hr
  have hpn : n.params.wf := hparams ▸ hp
  have hmn : Memory.wf n.mem := hmem ▸ hm
  have hacc : accessible n.params addr.toNat 1 = true := (accessible_iff hpn (by decide)).2 (hparams ▸ hin)
  refine ⟨_, (exec_strb_of_access hr).trans (if_pos hacc), ⟨(s.reg a.rd).extractLsb' 0 8, ?_, ?_⟩, fun b hb => ?_,
    store_keeps hr _⟩
  · rw [State.memRead8_write n hmn, if_pos hacc, if_pos rfl]
  · simp
  · rw [State.memRead8_write n hmn, if_neg hb, ← State.memRead8_congr hparams hmem]
    rfl

/-! ### The Fatal and the next fetch -/

/-- Settles O47: each of the four is the Fatal of its access where the bytes do not lie in one region. -/
theorem accessOutsideOneRegionIsFatal : Obligations.AccessOutsideOneRegionIsFatal := by
  intro a s n addr hp hr
  obtain ⟨-, hparams⟩ := resolveAddress_mem hr
  refine ⟨fun hout => ?word, fun hout => ?byte⟩
  case word =>
    have hacc : ¬ accessible s.params addr.toNat 4 = true := mt (accessible_iff hp (by decide)).1 hout
    exact ⟨(exec_ldr_of_access hr).trans (if_neg hacc), (exec_str_of_access hr).trans (if_neg (hparams ▸ hacc))⟩
  case byte =>
    have hacc : ¬ accessible s.params addr.toNat 1 = true := mt (accessible_iff hp (by decide)).1 hout
    exact ⟨(exec_ldrb_of_access hr).trans (if_neg hacc), (exec_strb_of_access hr).trans (if_neg (hparams ▸ hacc))⟩

/-- A fetch reads the four bytes at the program counter, wherever it was set. -/
theorem fetch_setReg_15 (s : State) (addr : Word) : fetch (s.setReg 15 addr) = s.memRead32 addr :=
  congrArg s.memRead32 (s.reg_setReg_self 15 addr)

/-- Settles O48: the stored word is in the memory that the fetch reads. -/
theorem storeIsSeenByTheNextFetch : Obligations.StoreIsSeenByTheNextFetch := by
  intro a s n t addr hm hr h
  obtain ⟨hmem, hparams⟩ := resolveAddress_mem hr
  rw [exec_str_of_access hr] at h
  split at h
  · next hacc =>
    cases h
    rw [fetch_setReg_15]
    exact State.memRead32_writeWord hacc (hmem ▸ hm) _
  · cases h

end Sys2Proof.Machine
end

section
/-! Loading a program (50_host_interface.md R218) and placing a word for the next fetch (48_cycle_engine.md R202), and
the obligations about them. -/

namespace Sys2Proof.Machine

open Sys2Proof.Claims

/-! ### The size of the text region (00_scope.md R7) -/

theorem four_dvd_textSize {p : Params} (hp : p.wf) : 4 ∣ p.textSize := by
  obtain ⟨-, -, -, h4, -⟩ := hp
  exact h4

theorem four_le_textSize {p : Params} (hp : p.wf) : 4 ≤ p.textSize := by
  obtain ⟨h, -⟩ := hp
  exact h

/-! ### The answer of `load_program` -/

theorem loadWords_snd_of_fits (ws : List Word) (i : Nat) {s : State}
    (h : 4 * (i + ws.length) ≤ s.params.textSize) : (loadWords ws i s).2 = none := by
  induction ws generalizing i s with
  | nil => rfl
  | cons w ws ih =>
    rw [List.length_cons] at h
    rw [loadWords, if_pos (by omega)]
    exact ih (i + 1) (by rw [State.setMem_params]; omega)

/-- The first word that does not fit is the one at the end of the text region. -/
theorem loadWords_snd_of_overflow (ws : List Word) (i : Nat) {s : State} (h4 : 4 ∣ s.params.textSize)
    (hi : 4 * i ≤ s.params.textSize) (h : s.params.textSize < 4 * (i + ws.length)) :
    (loadWords ws i s).2 = some (BitVec.ofNat 32 (s.params.textBase + s.params.textSize)) := by
  induction ws generalizing i s with
  | nil => exact absurd h (by simpa using hi)
  | cons w ws ih =>
    rw [List.length_cons] at h
    unfold loadWords
    split
    · exact ih (i + 1) h4 (by rw [State.setMem_params]; omega) (by rw [State.setMem_params]; omega)
    · have hend : 4 * i = s.params.textSize := by omega
      rw [hend]

/-! ### The memory it leaves -/

/-- Loading a program writes its own words only. -/
theorem read_loadWords_of_outside (ws : List Word) (i : Nat) {s : State} (hm : Memory.wf s.mem) (b : Nat)
    (hb : b < s.params.textBase + 4 * i ∨ s.params.textBase + 4 * (i + ws.length) ≤ b) :
    Memory.read (loadWords ws i s).1.mem b = Memory.read s.mem b := by
  induction ws generalizing i s with
  | nil => rfl
  | cons w ws ih =>
    rw [List.length_cons] at hb
    unfold loadWords
    split
    · rw [ih _ (Memory.writeWord_wf hm _ _) (by rw [State.setMem_params]; omega), State.setMem_mem,
        Memory.read_writeWord hm, if_neg (by omega)]
    · rfl

/-- A word that lies below the words being loaded is read as before. -/
theorem readWord_loadWords_of_below (ws : List Word) (i : Nat) {s : State} (hm : Memory.wf s.mem) {a : Nat}
    (ha : a + 4 ≤ s.params.textBase + 4 * i) :
    Memory.readWord (loadWords ws i s).1.mem a = Memory.readWord s.mem a := by
  simp only [Memory.readWord]
  rw [read_loadWords_of_outside ws i hm _ (.inl (by omega)), read_loadWords_of_outside ws i hm _ (.inl (by omega)),
    read_loadWords_of_outside ws i hm _ (.inl (by omega)), read_loadWords_of_outside ws i hm _ (.inl (by omega))]

/-- Each word that fits is in its place. -/
theorem readWord_loadWords (ws : List Word) (i : Nat) {s : State} (hm : Memory.wf s.mem) {j : Nat} (hj : j < ws.length)
    (hfit : 4 * (i + j + 1) ≤ s.params.textSize) :
    Memory.readWord (loadWords ws i s).1.mem (s.params.textBase + 4 * (i + j)) = ws[j] := by
  induction ws generalizing i j s with
  | nil => exact absurd hj (Nat.not_lt_zero j)
  | cons w ws ih =>
    rw [loadWords, if_pos (by omega)]
    have hm' := Memory.writeWord_wf hm (s.params.textBase + 4 * i) w
    cases j with
    | zero =>
      rw [readWord_loadWords_of_below ws (i + 1) hm' (by rw [State.setMem_params]; omega)]
      exact Memory.readWord_writeWord hm _ w
    | succ j =>
      have hsum : i + (j + 1) = i + 1 + j := by omega
      rw [hsum] at hfit ⊢
      exact ih (i + 1) hm' (Nat.lt_of_succ_lt_succ hj) hfit

/-! ### What the host sees -/

/-- The words that fit, read as the host reads them. -/
theorem memRead32_loadWords {s : State} (hp : s.params.wf) (hm : Memory.wf s.mem) (words : List Word) {i : Nat}
    (hi : i < words.length) (hfit : 4 * (i + 1) ≤ s.params.textSize) :
    (loadWords words 0 s).1.memRead32 (BitVec.ofNat 32 (s.params.textBase + 4 * i)) = some words[i] := by
  have hacc := accessible_text hp hfit
  have htop := lt_of_accessible hp (by decide) hacc
  have haddr : (BitVec.ofNat 32 (s.params.textBase + 4 * i)).toNat = s.params.textBase + 4 * i := by
    rw [BitVec.toNat_ofNat]
    omega
  have hread := readWord_loadWords words 0 hm hi (by omega)
  rw [Nat.zero_add] at hread
  rw [State.memRead32_eq_some, haddr, loadWords_keeps, State.setMem_params]
  exact ⟨hacc, hread⟩

/-- A byte whose memory is unchanged is read as before. -/
theorem memRead8_loadWords {s : State} {words : List Word} {b : Word}
    (h : Memory.read (loadWords words 0 s).1.mem b.toNat = Memory.read s.mem b.toNat) :
    (loadWords words 0 s).1.memRead8 b = s.memRead8 b := by
  rw [State.memRead8, h, loadWords_keeps]
  rfl

theorem loadWords_core_keeps (words : List Word) (s : State) :
    (∀ q, (loadWords words 0 s).1.reg q = s.reg q) ∧ (loadWords words 0 s).1.cpsr = s.cpsr ∧
    (loadWords words 0 s).1.halted = s.halted ∧ (loadWords words 0 s).1.params = s.params := by
  rw [loadWords_keeps]
  exact ⟨fun _ => rfl, rfl, rfl, rfl⟩

/-- The whole answer of the operation, from what the loading answers. -/
theorem hostStep_loadProgram (words : List Word) (h : Session) :
    hostStep (.loadProgram words) h =
      ((loadWords words 0 h.core).2.elim .done .fatal,
        ⟨(loadWords words 0 h.core).1, (loadWords words 0 h.core).2.isSome || h.stuck⟩) := by
  rcases hl : loadWords words 0 h.core with ⟨t, _ | addr⟩ <;> simp only [hostStep, hl] <;> rfl

/-- Settles O52: the words are stored in order until one does not fit; a store changes its own four bytes. -/
theorem loadProgramPlacesWords : Obligations.LoadProgramPlacesWords := by
  intro h words hp hm
  have hkeeps := loadWords_core_keeps words h.core
  refine ⟨fun hfits => ?fits, fun hover => ?overflows⟩
  case fits =>
    have hnone := loadWords_snd_of_fits words 0 (s := h.core) (by omega)
    refine ⟨(loadWords words 0 h.core).1, by rw [hostStep_loadProgram, hnone]; rfl,
      fun i hi => memRead32_loadWords hp hm words hi (by omega), fun b hb => memRead8_loadWords ?_, hkeeps⟩
    exact read_loadWords_of_outside words 0 hm _ (by omega)
  case overflows =>
    have hsome := loadWords_snd_of_overflow words 0 (four_dvd_textSize hp) (by omega) (by omega)
    refine ⟨(loadWords words 0 h.core).1, by rw [hostStep_loadProgram, hsome]; rfl,
      fun i hi hfit => memRead32_loadWords hp hm words hi hfit, fun b hb => memRead8_loadWords ?_, hkeeps⟩
    exact read_loadWords words 0 hm _ (by omega)

/-! ### Placing a word -/

/-- TEXT_BASE can be fetched from (00_scope.md R7). -/
theorem accessible_textBase {p : Params} (hp : p.wf) :
    accessible p (BitVec.ofNat 32 p.textBase).toNat 4 = true := by
  have hacc : accessible p (p.textBase + 4 * 0) 4 = true := accessible_text hp (four_le_textSize hp)
  have htop := lt_of_accessible hp (by decide) hacc
  rwa [BitVec.toNat_ofNat, Nat.mod_eq_of_lt (by omega)]

/-- The placed word is written at the program counter of a running state that can fetch from it. -/
theorem placeWord_eq_setMem {s : State} (hp : s.params.wf) (w : Word) :
    ∃ t : State, t.halted = false ∧ t.mem = s.mem ∧ accessible t.params t.pc.toNat 4 = true ∧
      placeWord s w = t.setMem (Memory.writeWord t.mem t.pc.toNat w) := by
  unfold placeWord
  dsimp only
  split
  · next hacc =>
    exact ⟨{ s with halted := false }, rfl, rfl, hacc, rfl⟩
  · refine ⟨{ s with halted := false }.setReg Config.pcIndex _, rfl, rfl, ?_, rfl⟩
    rw [State.pc, State.reg_setReg_self]
    exact accessible_textBase hp

theorem fetch_placeWord {s : State} (hp : s.params.wf) (hm : Memory.wf s.mem) (w : Word) :
    (placeWord s w).halted = false ∧ fetch (placeWord s w) = some w := by
  obtain ⟨t, hrun, hmem, hacc, ht⟩ := placeWord_eq_setMem hp w
  rw [ht]
  exact ⟨hrun, State.memRead32_writeWord hacc (hmem ▸ hm) w⟩

/-- A table word is decoded through its four bytes (30_encoding.md R60). -/
theorem decodeTableWord_of_le {nbits : Nat} (h : nbits ≤ 32) (w : Nat) :
    decodeTableWord nbits w = some (decodeWord (BitVec.ofNat 32 (w % 2 ^ nbits))) := by
  rw [decodeTableWord, if_pos h]
  simp only [decodeBytes, wordOfBytes_byteOfWord]

/-- Settles O55: a word of that many bits is placed as it is, and decoded through its four bytes. -/
theorem placedWordIsFetchedNext : Obligations.PlacedWordIsFetchedNext := by
  intro s nbits w hp hm hn hw
  obtain ⟨hrun, hfetch⟩ := fetch_placeWord hp hm (BitVec.ofNat 32 (w % 2 ^ nbits))
  have hdecode := decodeTableWord_of_le hn w
  rw [Nat.mod_eq_of_lt hw] at hrun hfetch hdecode
  rw [State.withFetchWord, Nat.mod_eq_of_lt hw]
  exact ⟨hrun, hfetch, hdecode⟩

end Sys2Proof.Machine
end

section
/-! The assembler (30_encoding.md R83): what it makes is well formed, and which constants it can make; and the
obligations about it. -/

namespace Sys2Proof.Machine

/-! ### Well-formedness -/

/-- An assembled operand has bit 7 clear where a multiply word has it set (30_encoding.md R66). -/
theorem assembleOperand2_not_multiply {x : Operand2Syntax} {o : Operand2} (h : assembleOperand2 x = some o) :
    o.looksLikeMultiply = false := by
  cases x with
  | const value =>
    obtain ⟨f, -, rfl⟩ := Option.map_eq_some_iff.1 h
    rfl
  | shifted rm type n =>
    obtain ⟨k, -, rfl⟩ := Option.map_eq_some_iff.1 h
    rfl
  | reg rm | rrx rm | shiftedByReg rm type rs =>
    cases h
    rfl

/-- An assembled address has P set or W clear (46_load_store.md R160). -/
theorem assembleAddress_supported {c : Cond} {rd : RegNum} {x : AddressSyntax} {f : LsArgs}
    (h : assembleAddress c rd x = some f) : f.supported = true := by
  cases x with
  | base rn =>
    cases h
    rfl
  | offset rn up o writeback | postIndexed rn up o =>
    obtain ⟨k, -, rfl⟩ := Option.map_eq_some_iff.1 h
    rfl

theorem AluOp.instr_wf (op : AluOp) {a : DpArgs} (h : a.op2.looksLikeMultiply = false) : (op.instr a).wf = true := by
  have hmul : (!a.op2.looksLikeMultiply) = true := by rw [h]; rfl
  cases op with
  | and | eor => exact hmul
  | sub | rsb | add | adc | sbc | rsc | orr | bic => rfl

theorem CompareOp.instr_wf (op : CompareOp) (a : DpArgs) : (op.instr a).wf = true := by
  cases op <;> rfl

/-- Settles O56: an assembled operand is no multiply's and an assembled address is of a supported form; the other
instructions are well formed whatever their fields. -/
theorem assembledInstructionsAreWellFormed : Obligations.AssembledInstructionsAreWellFormed := by
  intro address x i h
  cases x with
  | alu op cond s rd rn op2 =>
    obtain ⟨o, ho, rfl⟩ := Option.map_eq_some_iff.1 h
    exact op.instr_wf (assembleOperand2_not_multiply ho)
  | compare op cond rn op2 =>
    obtain ⟨o, -, rfl⟩ := Option.map_eq_some_iff.1 h
    exact op.instr_wf _
  | mov cond s rd op2 | mvn cond s rd op2 | userMode cond load byte rd rn up o =>
    obtain ⟨o, -, rfl⟩ := Option.map_eq_some_iff.1 h
    rfl
  | ldr cond byte rd a | str cond byte rd a =>
    obtain ⟨f, hf, rfl⟩ := Option.map_eq_some_iff.1 h
    cases byte <;> exact assembleAddress_supported hf
  | mul cond s rd rm rs | mla cond s rd rm rs rn | b cond target | bl cond target | swi cond imm24 =>
    cases h
    rfl

/-! ### Constants -/

/-- Bit `k` of `v` is that of the 8-bit value `b`, rotated right by `n`. -/
def IsRotatedByte (v : Word) (n : Nat) (b : BitVec 8) : Prop := ∀ k < 32, v.getLsbD k = b.getLsbD ((k + n) % 32)

/-- A rotation left moves bit `k` to bit `(k + n) mod 32`. -/
theorem getLsbD_rotateLeft_word (v : Word) {n k : Nat} (hn : n < 32) (hk : k < 32) :
    (v.rotateLeft n).getLsbD ((k + n) % 32) = v.getLsbD k := by
  rw [BitVec.getLsbD_rotateLeft_of_le hn]
  by_cases h : k + n < 32
  · have hidx : (k + n) % 32 = k + n := Nat.mod_eq_of_lt h
    have hge : ¬ k + n < n := by omega
    simp [hidx, h, hge]
  · have hidx : (k + n) % 32 = k + n - 32 := by omega
    have hlt : k + n - 32 < n := by omega
    have hback : 32 - n + (k + n - 32) = k := by omega
    simp [hidx, hlt, hback]

/-- A rotated byte is the zero-extended byte when it is rotated back. -/
theorem isRotatedByte_iff {v : Word} {n : Nat} {b : BitVec 8} (hn : n < 32) :
    IsRotatedByte v n b ↔ v.rotateLeft n = b.zeroExtend 32 := by
  have hback {j : Nat} (hj : j < 32) : ((j + 32 - n) % 32 + n) % 32 = j := by omega
  have hmod (k : Nat) : k % 32 < 32 := Nat.mod_lt k (by decide)
  have hzero (j : Nat) (hj : j < 32) : (b.zeroExtend 32).getLsbD j = b.getLsbD j := by simp [hj]
  rw [BitVec.eq_of_getLsbD_eq_iff]
  refine ⟨fun h j hj => ?back, fun h k hk => ?forth⟩
  case back =>
    calc (v.rotateLeft n).getLsbD j = v.getLsbD ((j + 32 - n) % 32) := by
          rw [← getLsbD_rotateLeft_word v hn (hmod _), hback hj]
      _ = b.getLsbD j := by rw [h _ (hmod _), hback hj]
      _ = (b.zeroExtend 32).getLsbD j := (hzero j hj).symm
  case forth => rw [← getLsbD_rotateLeft_word v hn hk, h _ (hmod _), hzero _ (hmod _)]

/-- A word below 256 is its low byte. -/
theorem toNat_lt_256_iff (w : Word) :
    w.toNat < 256 ↔ w = (w.extractLsb' 0 8).zeroExtend 32 := by
  have hlow : ((w.extractLsb' 0 8).zeroExtend 32).toNat = w.toNat % 256 := by
    rw [BitVec.toNat_setWidth_of_le (by decide), BitVec.extractLsb'_toNat, Nat.shiftRight_zero]
  rw [← BitVec.toNat_inj, hlow]
  omega

/-- The test of the assembler: the value, rotated back, is below 256. -/
theorem isRotatedByte_of_lt {v : Word} {n : Nat} (hn : n < 32) (h : (v.rotateLeft n).toNat < 256) :
    IsRotatedByte v n ((v.rotateLeft n).extractLsb' 0 8) :=
  (isRotatedByte_iff hn).2 ((toNat_lt_256_iff _).1 h)

theorem IsRotatedByte.lt {v : Word} {n : Nat} {b : BitVec 8} (hn : n < 32) (h : IsRotatedByte v n b) :
    (v.rotateLeft n).toNat < 256 := by
  rw [(isRotatedByte_iff hn).1 h, BitVec.toNat_setWidth_of_le (by decide)]
  exact b.isLt

/-- The fields of an assembled constant. -/
theorem assembleConstant_eq_some {v : Word} {rot : BitVec 4} {imm8 : BitVec 8}
    (h : assembleConstant v = some (rot, imm8)) : IsRotatedByte v (2 * rot.toNat) imm8 := by
  obtain ⟨r, hfind, hfields⟩ := Option.map_eq_some_iff.1 h
  have hr : r < 16 := List.mem_range.1 (List.mem_of_find?_eq_some hfind)
  have hlt : (v.rotateLeft (2 * r)).toNat < 256 := by simpa using List.find?_some hfind
  cases hfields
  rw [BitVec.toNat_ofNat, Nat.mod_eq_of_lt hr]
  exact isRotatedByte_of_lt (by omega) hlt

theorem assembleConstant_isSome_iff (v : Word) :
    (assembleConstant v).isSome = true ↔ ∃ (r : Nat) (b : BitVec 8), r < 16 ∧ IsRotatedByte v (2 * r) b := by
  rw [assembleConstant, Option.isSome_map, List.find?_isSome]
  refine ⟨fun ⟨r, hr, hlt⟩ => ?some, fun ⟨r, b, hr, hb⟩ => ?rotated⟩
  case some =>
    have hr16 := List.mem_range.1 hr
    exact ⟨r, _, hr16, isRotatedByte_of_lt (by omega) (of_decide_eq_true hlt)⟩
  case rotated => exact ⟨r, List.mem_range.2 hr, decide_eq_true (hb.lt (by omega))⟩

/-- The operand of a rotated byte has its value (41_shifter_operand.md R102). -/
theorem immediateOperand_value_of_isRotatedByte {v : Word} {rot : BitVec 4} {imm8 : BitVec 8} (c : Bool)
    (h : IsRotatedByte v (2 * rot.toNat) imm8) : (immediateOperand rot imm8 c).value = v :=
  BitVec.eq_of_getLsbD_eq fun k hk => by rw [immediateOperand_getLsbD rot imm8 c hk, h k hk]

/-- Settles O57: the assembler finds a rotation exactly where one makes the value a byte, and the operand rotates the
byte back. -/
theorem assembledConstantsHaveTheirValue : Obligations.AssembledConstantsHaveTheirValue := by
  intro v
  refine ⟨?_, fun o s h => ?_⟩
  · rw [assembleOperand2, Option.isSome_map]
    exact assembleConstant_isSome_iff v
  · obtain ⟨⟨rot, imm8⟩, hconst, rfl⟩ := Option.map_eq_some_iff.1 h
    exact immediateOperand_value_of_isRotatedByte _ (assembleConstant_eq_some hconst)

end Sys2Proof.Machine
end
